-- ==== Sys2Proof/Word.lean ====
section
/-! DEFINITION. The widths the spec names: bytes, 16-bit words, 4-bit fields and 12-bit addresses (00_scope R4, R6, R7). -/

namespace Sys2Proof

/-- An 8-bit unsigned value: a V register, a timer, a memory byte, the immediate `kk` (R4, R150). -/
abbrev Byte := BitVec 8

/-- A 16-bit unsigned value: `pc`, `I`, `sp`, an instruction word (R4, R80). -/
abbrev Word := BitVec 16

/-- A 4-bit field of the instruction word: a register index `x` or `y`, the row count `n`, an opcode nibble (R7). -/
abbrev Nibble := BitVec 4

/-- The 12-bit immediate `nnn` (R7, R85). -/
abbrev Addr12 := BitVec 12

end Sys2Proof
end

