-- ==== Sys2Proof/Machine/Flags.lean ====
section
/-! DEFINITION. The values that the flag instructions write to VF (10_state R27) and the 8-bit arithmetic beside them
(43_family_8_alu R150 to R153), computed on naturals and narrowed at the end. -/

namespace Sys2Proof.Machine

/-- A flag value: 0x01 for true, 0x00 for false (10_state R26, 00_scope R10). -/
def flagByte (b : Bool) : Byte := if b then 0x01#8 else 0x00#8

/-- `(a + b) mod 256` (R151). -/
def sum8 (a b : Byte) : Byte := BitVec.ofNat 8 (a.toNat + b.toNat)

/-- `1 if a + b > 255 else 0` (R151). -/
def carryFlag (a b : Byte) : Byte := flagByte (decide (255 < a.toNat + b.toNat))

/-- `(a - b) mod 256`, that is a - b, or a - b + 256 when a < b (R152). -/
def diff8 (a b : Byte) : Byte := BitVec.ofNat 8 (a.toNat + 256 - b.toNat)

/-- `1 if a > b else 0`, strictly (R152). -/
def greaterFlag (a b : Byte) : Byte := flagByte (decide (b.toNat < a.toNat))

/-- `a & 1`, the bit 8xy6 shifts out (R146). -/
def lowBitFlag (a : Byte) : Byte := a &&& 0x01#8

/-- `(a >> 7) & 1`, the bit 8xyE shifts out (R148). -/
def highBitFlag (a : Byte) : Byte := (a >>> 7) &&& 0x01#8

/-- `a >> 1`, logical (R153). -/
def shiftRight1 (a : Byte) : Byte := a >>> 1

/-- `(a << 1) mod 256` (R153). -/
def shiftLeft1 (a : Byte) : Byte := a <<< 1

end Sys2Proof.Machine
end

