-- ==== Sys2Proof/Syntax.lean ====
section
/-! DEFINITION. The 35 instructions of the opcode map (30_encoding R86), one constructor per row of spec/opcode_table.json,
in the table's order. -/

namespace Sys2Proof

/-- An instruction with its fields (30_encoding R82, R85). Mnemonics are labels (R91); the hex pattern names the row. -/
inductive Instr where
  /-- 00E0, R120 -/
  | cls
  /-- 00EE, R121 -/
  | ret
  /-- 0nnn, R122: every family-0 word but 00E0 and 00EE -/
  | sys (nnn : Addr12)
  /-- 1nnn, R123 -/
  | jp (nnn : Addr12)
  /-- 2nnn, R124 -/
  | call (nnn : Addr12)
  /-- 3xkk, R130 -/
  | seImm (x : Nibble) (kk : Byte)
  /-- 4xkk, R131 -/
  | sneImm (x : Nibble) (kk : Byte)
  /-- 5xy0, R132 -/
  | seReg (x y : Nibble)
  /-- 6xkk, R133 -/
  | ldImm (x : Nibble) (kk : Byte)
  /-- 7xkk, R134 -/
  | addImm (x : Nibble) (kk : Byte)
  /-- 8xy0, R140 -/
  | ldReg (x y : Nibble)
  /-- 8xy1, R141 -/
  | orReg (x y : Nibble)
  /-- 8xy2, R142 -/
  | andReg (x y : Nibble)
  /-- 8xy3, R143 -/
  | xorReg (x y : Nibble)
  /-- 8xy4, R144 -/
  | addReg (x y : Nibble)
  /-- 8xy5, R145 -/
  | subReg (x y : Nibble)
  /-- 8xy6, R146; `y` is decoded and has no effect (R88) -/
  | shr (x y : Nibble)
  /-- 8xy7, R147 -/
  | subnReg (x y : Nibble)
  /-- 8xyE, R148; `y` is decoded and has no effect (R88) -/
  | shl (x y : Nibble)
  /-- 9xy0, R160 -/
  | sneReg (x y : Nibble)
  /-- Annn, R161 -/
  | ldI (nnn : Addr12)
  /-- Bnnn, R162 -/
  | jpV0 (nnn : Addr12)
  /-- Cxkk, R163 -/
  | rnd (x : Nibble) (kk : Byte)
  /-- Dxyn, R172 -/
  | drw (x y n : Nibble)
  /-- Ex9E, R180 -/
  | skp (x : Nibble)
  /-- ExA1, R181 -/
  | sknp (x : Nibble)
  /-- Fx07, R185 -/
  | ldVxDT (x : Nibble)
  /-- Fx0A, R186 -/
  | ldVxK (x : Nibble)
  /-- Fx15, R187 -/
  | ldDTVx (x : Nibble)
  /-- Fx18, R188 -/
  | ldSTVx (x : Nibble)
  /-- Fx1E, R189 -/
  | addIVx (x : Nibble)
  /-- Fx29, R190 -/
  | ldFVx (x : Nibble)
  /-- Fx33, R191 -/
  | ldBVx (x : Nibble)
  /-- Fx55, R192 -/
  | storeRegs (x : Nibble)
  /-- Fx65, R193 -/
  | loadRegs (x : Nibble)
  deriving DecidableEq, Repr

end Sys2Proof
end

