-- ==== Sys2Proof/WellFormed.lean ====
section
/-! DEFINITION. Which instruction terms stand for a word of the opcode map (30_encoding R84). -/

namespace Sys2Proof

/-- Every field is as wide as its bits, so one check is left: 0nnn does not stand for 00E0 (CLS) or 00EE (RET), the two
words "the row 0nnn applies only when the opcode is neither" of (R84). -/
def Instr.wellFormed : Instr → Bool
  | .sys nnn => nnn != 0x0E0#12 && nnn != 0x0EE#12
  | _ => true

end Sys2Proof
end

