-- ==== Sys2Proof/Config.lean ====
section
/-! DEFINITION. The constants of the parameter table (00_scope R4), and the one free value of the spec, the random byte of
Cxkk (10_state R36). The two OPEN parameters, TIMER_COUPLED and FONT, are plain data of State (assumption log 2 and 3). -/

namespace Sys2Proof

/-- `MEM_SIZE`: bytes of the memory array (R4, R38). -/
@[simp] abbrev Config.memSize : Nat := 4096

/-- `FONT_SIZE`: 16 glyphs of 5 bytes, at address 0x000 (R4, R50). -/
@[simp] abbrev Config.fontSize : Nat := 80

/-- `GLYPH_SIZE`: the multiplier of Fx29 (R4, R190). -/
@[simp] abbrev Config.glyphSize : Nat := 5

/-- `PROG_BASE`: load address and reset value of `pc` (R4, R244). -/
@[simp] abbrev Config.progBase : Nat := 0x200

/-- `MAX_IMAGE`: the longest image `load` accepts (R4, R248). -/
@[simp] abbrev Config.maxImage : Nat := 3584

/-- `STACK_TOP`: reset value of `sp`, the highest stack byte (R4, R29). -/
@[simp] abbrev Config.stackTop : Nat := 0x6CF

/-- `STACK_DEPTH`: return addresses the stack holds (R4, R53). -/
@[simp] abbrev Config.stackDepth : Nat := 16

/-- `STACK_LIMIT`: the lowest value `sp` takes (R4, R124). -/
@[simp] abbrev Config.stackLimit : Nat := 0x6AF

/-- `FB_BASE`: first byte of the framebuffer (R4, R170). -/
@[simp] abbrev Config.fbBase : Nat := 0x700

/-- `FB_SIZE`: bytes of the framebuffer (R4, R170). -/
@[simp] abbrev Config.fbSize : Nat := 256

/-- `DISPLAY_W`: pixel columns (R4, R170). -/
@[simp] abbrev Config.displayW : Nat := 64

/-- `DISPLAY_H`: pixel rows (R4, R170). -/
@[simp] abbrev Config.displayH : Nat := 32

/-- `NUM_KEYS`: entries of the key latch (R4, R32). -/
@[simp] abbrev Config.numKeys : Nat := 16

/-- The random byte of the k-th Cxkk, a FREE VALUE: "under no law" (10_state R36, 60_exceptions R226). No body, so no proof
can see it. DESIGN CHOICE, safe: assumption log 4. -/
opaque Config.rnd : Nat → Byte

end Sys2Proof
end

