-- ==== Sys2Proof/Machine/Memory.lean ====
section
/-! DEFINITION. The memory array of 4096 bytes (10_state R38): one canonical list of cells over its reset contents, its byte
read and write, and the runs of bytes built from them (20_memory). Every access of the machine goes through these. -/

namespace Sys2Proof.Machine

/-- FONT, the spec's OPEN parameter of 80 glyph bytes (00_scope R4): glyph `g` at offset `5·g`, top row first (R241). -/
abbrev Font := Vector Byte 80

/-- The memory array: what its bytes hold where they differ from their reset contents. `font` is the parameter FONT, never
written (assumption log 3). -/
structure Memory where
  font : Font
  cells : List Host.Cell
  deriving DecidableEq, Repr

/-- What an address with no cell reads as: its reset contents, FONT in [0x000, 0x050) and 0x00 above (R241). -/
def Memory.resetByte (m : Memory) (a : Nat) : Byte :=
  if h : a < 80 then m.font[a] else 0x00#8

/-- The byte of the cell at `a`, where there is one. -/
def lookupCell (a : Nat) : List Host.Cell → Option Byte
  | [] => none
  | c :: cs => if c.1 = a then some c.2 else lookupCell a cs

/-- The cell at `a` set to `b`, in its place in the rising order. -/
def putCell (a : Nat) (b : Byte) : List Host.Cell → List Host.Cell
  | [] => [(a, b)]
  | c :: cs => if c.1 < a then c :: putCell a b cs else if c.1 = a then (a, b) :: cs else (a, b) :: c :: cs

/-- No cell at `a`. -/
def dropCell (a : Nat) : List Host.Cell → List Host.Cell
  | [] => []
  | c :: cs => if c.1 = a then dropCell a cs else c :: dropCell a cs

/-- `mem[a]` read (R8, R38). -/
def Memory.read (m : Memory) (a : Nat) : Byte :=
  (lookupCell a m.cells).getD (m.resetByte a)

/-- `mem[a] <- b` (R8, R38): every address below 4096 is writable (R51); above there is no byte to write. -/
def Memory.write (m : Memory) (a : Nat) (b : Byte) : Memory :=
  if a < Config.memSize then
    if b = m.resetByte a then { m with cells := dropCell a m.cells } else { m with cells := putCell a b m.cells }
  else m

/-- `mem[a] <- b0; mem[a+1] <- b1; ...`, ascending. -/
def Memory.writeBytes (m : Memory) (a : Nat) : List Byte → Memory
  | [] => m
  | b :: bs => (m.write a b).writeBytes (a + 1) bs

/-- The canonical form: addresses strictly rising and inside the array, no cell equal to what its address reads as without
one. Equal memories are then equal data. -/
abbrev Memory.wf (m : Memory) : Prop :=
  m.cells.Pairwise (fun c d => c.1 < d.1) ∧ ∀ c ∈ m.cells, c.1 < Config.memSize ∧ c.2 ≠ m.resetByte c.1

/-! ## The default of FONT (93_implementation_defined G1; PRESUMED, assumption log 3) -/

/-- Glyphs 0 to 3. -/
def fontGlyphs0to3 : Vector Byte 20 :=
  #v[0xF0, 0x90, 0x90, 0x90, 0xF0, 0x20, 0x60, 0x20, 0x20, 0x70, 0xF0, 0x10, 0xF0, 0x80, 0xF0, 0xF0, 0x10, 0xF0, 0x10, 0xF0]

/-- Glyphs 4 to 7. -/
def fontGlyphs4to7 : Vector Byte 20 :=
  #v[0x90, 0x90, 0xF0, 0x10, 0x10, 0xF0, 0x80, 0xF0, 0x10, 0xF0, 0xF0, 0x80, 0xF0, 0x90, 0xF0, 0xF0, 0x10, 0x20, 0x40, 0x40]

/-- Glyphs 8 to B. -/
def fontGlyphs8toB : Vector Byte 20 :=
  #v[0xF0, 0x90, 0xF0, 0x90, 0xF0, 0xF0, 0x90, 0xF0, 0x10, 0xF0, 0xF0, 0x90, 0xF0, 0x90, 0x90, 0xE0, 0x90, 0xE0, 0x90, 0xE0]

/-- Glyphs C to F. -/
def fontGlyphsCtoF : Vector Byte 20 :=
  #v[0xF0, 0x80, 0x80, 0x80, 0xF0, 0xE0, 0x90, 0x90, 0x90, 0xE0, 0xF0, 0x80, 0xF0, 0x80, 0xF0, 0xF0, 0x80, 0xF0, 0x80, 0x80]

/-- The spec's default table for FONT. No rule depends on the bytes (D15), and no statement of this package does. -/
def defaultFont : Font := (fontGlyphs0to3 ++ fontGlyphs4to7 ++ fontGlyphs8toB ++ fontGlyphsCtoF : Vector Byte 80)

end Sys2Proof.Machine
end

