-- ==== Sys2Proof/Machine/State.lean ====
section
/-! DEFINITION. The state of the core (10_state section 1: "There is no other state"), the reasons a step can stop, and the
state after reset (70_reset_and_hazards R240 to R245). -/

namespace Sys2Proof.Machine

/-- The three states of the fetch-decode-execute FSM (10_state R33). -/
inductive Fsm where
  | running
  | waitingForKey
  | faulted
  deriving DecidableEq, Repr

/-- The kind of the latched fault (10_state R34, 60_exceptions R200). -/
inductive FaultKind where
  /-- No fault latched. -/
  | none
  | invalidOpcode
  | stackOverflow
  | stackUnderflow
  | memoryOutOfBounds
  deriving DecidableEq, Repr

/-- The fault record (10_state R34); a field that is not meaningful for the kind holds 0 (R212). -/
structure FaultRecord where
  kind : FaultKind
  opcode : Word
  pc : Word
  address : Word
  deriving DecidableEq, Repr

/-- The state of the core, with two parameters of the machine held as plain data that nothing writes (`mem.font` is FONT,
`timerCoupled` is TIMER_COUPLED) and the counter that numbers the free random bytes. -/
structure State where
  /-- V0 to VF, 8 bits each; VF = `V[15]` is the flag register (R20, R26). -/
  V : Vector Byte 16
  /-- program counter, a byte address (R23). -/
  pc : Word
  /-- index register (R28). -/
  I : Word
  /-- stack pointer: the low byte of the next free slot (R29). -/
  sp : Word
  /-- delay timer (R30). -/
  DT : Byte
  /-- sound timer (R31). -/
  ST : Byte
  /-- key latch, true while pressed (R32). -/
  keys : Vector Bool 16
  /-- FSM state (R33). -/
  fsm : Fsm
  /-- fault record (R34). -/
  fault : FaultRecord
  /-- memory array (R38). -/
  mem : Memory
  /-- the OPEN parameter TIMER_COUPLED (00_scope R4, 40_cycle R108); assumption log 2. -/
  timerCoupled : Bool
  /-- how many random bytes Cxkk has drawn: the model's own, assumption log 4. -/
  draws : Nat
  deriving DecidableEq, Repr

/-- Why a step stops with no next state. The four faults of the spec are no such stop: the spec describes their entry whole
(60_exceptions R211), so they are next states. -/
inductive Fault where
  /-- Raised by 00EE and 2nnn when a stack byte they address does not exist. Only a value of `sp` outside the 17 of 10_state
  R29 leads here, and no run has one (20_memory R72). Safe: the model stops. Assumption log 7. -/
  | stackPointerOutsideMemory
  deriving DecidableEq, Repr

/-- Why the model gives no move. -/
inductive Refusal where
  /-- Raised by an arm of `exec` whose instruction has no meaning yet; no arm is one now. Safe. -/
  | notModelled (mnemonic : String)
  /-- Raised by the transaction `load` made otherwise than as the first one after `reset`: "a model gives it no move" (70_reset
  R249, decision D17). Never raised by `step`. Safe. -/
  | loadOutsideContract
  /-- Raised by `set_key`, `get_key` and `pixel` with an argument out of range: "a model refuses the transaction" (45_family_D
  R176, 60_exceptions R222). Never raised by `step`. Safe. -/
  | argumentOutOfRange
  deriving DecidableEq, Repr

/-- The record when no fault is latched (10_state R34). -/
def FaultRecord.clear : FaultRecord := ⟨.none, 0x0000#16, 0x0000#16, 0x0000#16⟩

/-- What `reset` leaves, given the two parameters (70_reset_and_hazards R240 to R245). -/
def State.resetWith (font : Font) (timerCoupled : Bool) (draws : Nat) : State where
  V := Vector.replicate 16 0x00#8
  pc := 0x0200#16
  I := 0x0000#16
  sp := 0x06CF#16
  DT := 0x00#8
  ST := 0x00#8
  keys := Vector.replicate 16 false
  fsm := .running
  fault := .clear
  mem := ⟨font, []⟩
  timerCoupled := timerCoupled
  draws := draws

/-- The machine right after its first reset, with the spec's defaults of the two OPEN parameters (00_scope R4): DESIGN
CHOICE, assumption log 2, 3 and 4. -/
def State.reset : State := State.resetWith defaultFont true 0

end Sys2Proof.Machine
end

