-- ==== Sys2Proof/Machine/Operands.lean ====
section
/-! DEFINITION. The operand forms (30_encoding R85): a V register by its 4-bit index, the immediates, a key selected by a
register's low nibble, and the addresses of the framebuffer. -/

namespace Sys2Proof.Machine

/-- The index of VF, the flag register (10_state R26). -/
abbrev VF : Nibble := 0xF#4

/-- `V[x]` read (R8, R20). -/
def getV (x : Nibble) (s : State) : Byte := s.V[x.toNat]'x.isLt

/-- `V[x] <- b` (R8, R20). -/
def setV (x : Nibble) (b : Byte) (s : State) : State := { s with V := s.V.set x.toNat b x.isLt }

/-- `keys[k]` (10_state R32). -/
def getKey (k : Nibble) (s : State) : Bool := s.keys[k.toNat]'k.isLt

/-- `keys[k] <- pressed` (60_exceptions R222). -/
def setKey (k : Nibble) (pressed : Bool) (s : State) : State := { s with keys := s.keys.set k.toNat pressed k.isLt }

/-- The key a register's value selects, `V[x] mod 16`, the low nibble (46_family_E R182). -/
def keyOf (b : Byte) : Nibble := b.extractLsb' 0 4

/-- `zext_16(nnn)` (R85). -/
def zextAddr (nnn : Addr12) : Word := nnn.setWidth 16

/-- `zext_16` of a register value (R85). -/
def zextByte (b : Byte) : Word := b.setWidth 16

/-- `FbAddr(row, col)`, the framebuffer byte of byte-column `col` of pixel row `row` (45_family_D R170). -/
def fbAddr (row col : Nat) : Nat := Config.fbBase + 8 * row + col

/-- Is pixel (px, py) lit: bit `7 - (px mod 8)` of its byte (45_family_D R171). -/
def pixelLit (m : Memory) (px py : Nat) : Bool := (m.read (fbAddr py (px / 8))).getLsbD (7 - px % 8)

end Sys2Proof.Machine
end

