-- ==== Sys2Proof/Machine/Ops.lean ====
section
/-! DEFINITION. The shared operations: how an instruction ends (done, poll, raise), the bounds check, the program counter, the
stack, the register-to-register forms, the block moves, the draw and the timer tick. -/

namespace Sys2Proof.Machine

/-- The three outcomes of a step over this State. -/
abbrev Result := Host.Outcome State Fault Refusal

/-! ## How an instruction ends -/

/-- The instruction completes: `fsm <- Running` (40_cycle R107). The coupled tick is the cycle's. -/
def done (s : State) : Result := .next { s with fsm := .running }

/-- A poll: `fsm <- WaitingForKey` and nothing else (40_cycle R107). -/
def poll (s : State) : Result := .next { s with fsm := .waitingForKey }

/-- Taking a fault, the hardware's one exception entry (60_exceptions R211): `fsm <- Faulted`, the record latched, nothing
else changed; no handler, no vector, no saved state. There is no return from it (R214): only `reset` leaves Faulted. -/
def raise (r : FaultRecord) (s : State) : Result := .next { s with fsm := .faulted, fault := r }

/-- `InvalidOpcode{opcode, pc}` (R201, R212). -/
def invalidOpcodeRecord (opcode pc : Word) : FaultRecord := ⟨.invalidOpcode, opcode, pc, 0x0000#16⟩

/-- `StackOverflow` (R202, R212). -/
def stackOverflowRecord : FaultRecord := ⟨.stackOverflow, 0x0000#16, 0x0000#16, 0x0000#16⟩

/-- `StackUnderflow` (R203, R212). -/
def stackUnderflowRecord : FaultRecord := ⟨.stackUnderflow, 0x0000#16, 0x0000#16, 0x0000#16⟩

/-- `MemoryOutOfBounds{address}` of an access starting at `a0`: `address = max(a0, 0x1000)` (20_memory R64, R212). -/
def memoryOutOfBoundsRecord (a0 : Word) : FaultRecord :=
  ⟨.memoryOutOfBounds, 0x0000#16, 0x0000#16, BitVec.ofNat 16 (max a0.toNat Config.memSize)⟩

/-- The code of a fault kind in a 3-bit field (R205). -/
def FaultKind.code : FaultKind → BitVec 3
  | .none => 0#3
  | .invalidOpcode => 1#3
  | .stackOverflow => 2#3
  | .stackUnderflow => 3#3
  | .memoryOutOfBounds => 4#3

/-- Does the access to the `m` addresses from `a0` leave memory: `a0 + m - 1 > 0xFFF`, on naturals, never for `m = 0`
(20_memory R63, R65). -/
def outOfBounds (a0 : Word) (m : Nat) : Bool := decide (0 < m ∧ Config.memSize < a0.toNat + m)

/-- The bounds check of an instruction that accesses `m` bytes from `a0`, made before its first write (R63). -/
def ifInBounds (a0 : Word) (m : Nat) (s : State) (k : State → Result) : Result :=
  if outOfBounds a0 m then raise (memoryOutOfBoundsRecord a0) s else k s

/-! ## Program counter (10_state R24) -/

/-- `pc <- pc + 2`. -/
def advance (s : State) : State := { s with pc := s.pc + 2#16 }

/-- `pc <- target`. -/
def jump (target : Word) (s : State) : State := { s with pc := target }

/-- "skip next instruction if c": `pc <- pc + 4` if `c`, else `pc <- pc + 2`. -/
def skipIf (c : Bool) (s : State) : State := if c then { s with pc := s.pc + 4#16 } else advance s

/-! ## Register forms -/

/-- `V[x] <- b; pc <- pc + 2`. -/
def writeReg (x : Nibble) (b : Byte) (s : State) : Result := done (advance (setV x b s))

/-- The two statements of a flagged ALU instruction in the written order (43_family_8 R149): VF from the operands, then
`V[x]` from the operands read again after the VF write. -/
def flagThenResult (flag result : Byte → Byte → Byte) (x y : Nibble) (s : State) : Result :=
  let s1 := setV VF (flag (getV x s) (getV y s)) s
  writeReg x (result (getV x s1) (getV y s1)) s1

/-- `I <- v; pc <- pc + 2`. -/
def writeIndex (v : Word) (s : State) : Result := done (advance { s with I := v })

/-! ## The random byte (44_family_9_to_C R163) -/

/-- The free byte of this execution, and the state that has drawn it. -/
def drawRnd (s : State) : Byte × State := (Config.rnd s.draws, { s with draws := s.draws + 1 })

/-! ## The stack (20_memory R53) -/

/-- Do the two bytes that a push at `sp` writes, `sp - 1` and `sp`, exist. True for the 17 values of R29. -/
def pushInMemory (sp : Word) : Bool := decide (1 ≤ sp.toNat ∧ sp.toNat < Config.memSize)

/-- Do the two bytes that a pop at `sp` reads, `sp + 1` and `sp + 2`, exist. True for the 17 values of R29. -/
def popInMemory (sp : Word) : Bool := decide (sp.toNat + 2 < Config.memSize)

/-- `mem[sp-1] <- v[15:8]; mem[sp] <- v[7:0]; sp <- sp - 2`. -/
def push (v : Word) (s : State) : State :=
  { s with mem := s.mem.writeBytes (s.sp.toNat - 1) [highByte v, lowByte v], sp := s.sp - 2#16 }

/-- `mem[sp+1] ++ mem[sp+2]`. -/
def stackTopWord (s : State) : Word := joinBytes (s.mem.read (s.sp.toNat + 1)) (s.mem.read (s.sp.toNat + 2))

/-- `sp <- sp + 2`; the stack bytes stay. -/
def pop (s : State) : State := { s with sp := s.sp + 2#16 }

/-! ## Block moves (47_family_F R191 to R193) -/

/-- V0 to VF, the first `m` of them. -/
def firstRegs (m : Nat) (s : State) : List Byte := s.V.toList.take m

/-- `V[i] <- mem[a + i]` for i = 0 .. m-1, ascending. -/
def loadBlock (a : Nat) : Nat → State → State
  | 0, s => s
  | m + 1, s => let s1 := loadBlock a m s; setV (BitVec.ofNat 4 m) (s1.mem.read (a + m)) s1

/-- The three decimal digits of a byte, hundreds first, each a byte (R191). -/
def bcdDigits (b : Byte) : List Byte :=
  [BitVec.ofNat 8 (b.toNat / 100), BitVec.ofNat 8 (b.toNat / 10 % 10), BitVec.ofNat 8 (b.toNat % 10)]

/-! ## The framebuffer (41_family_0_1_2 R120) -/

/-- `mem[a] <- 0x00` for a = 0x700 .. 0x7FF. -/
def clearFramebuffer (s : State) : State :=
  { s with mem := s.mem.writeBytes Config.fbBase (List.replicate Config.fbSize 0x00#8) }

/-! ## The draw (45_family_D R172) -/

/-- What a draw builds up: memory and the collision flag. -/
structure Draw where
  mem : Memory
  collision : Bool
  deriving DecidableEq, Repr

/-- One part of a sprite row XORed into the byte at `a`; a bit is cleared where both are 1 (R174). -/
def xorPart (a : Nat) (part : Byte) (d : Draw) : Draw :=
  { mem := d.mem.write a (d.mem.read a ^^^ part), collision := d.collision || d.mem.read a &&& part != 0x00#8 }

/-- One sprite row `b` at pixel column `xpos` of pixel row `row`: the left part to its byte, and, where it straddles a byte
boundary, the right part to the next byte-column of the same pixel row, which wraps from 7 to 0 (R173). -/
def drawRow (xpos row : Nat) (b : Byte) (d : Draw) : Draw :=
  let s := xpos % 8
  let c0 := xpos / 8
  let d1 := xorPart (fbAddr row c0) (b >>> s) d
  if s = 0 then d1 else xorPart (fbAddr row ((c0 + 1) % 8)) (b <<< (8 - s)) d1

/-- Rows 0 .. n-1 of the sprite at `i`, ascending, each sprite byte read when its row is reached (R175). -/
def drawRows (i xpos ypos : Nat) : Nat → Draw → Draw
  | 0, d => d
  | r + 1, d => let d1 := drawRows i xpos ypos r d; drawRow xpos ((ypos + r) % Config.displayH) (d1.mem.read (i + r)) d1

/-! ## Keys (47_family_F R186) -/

/-- The least pressed key not below `16 - m`, ascending scan. -/
def scanKeys (s : State) : Nat → Option Nibble
  | 0 => none
  | m + 1 => if getKey (BitVec.ofNat 4 (15 - m)) s then some (BitVec.ofNat 4 (15 - m)) else scanKeys s m

/-- The lowest-numbered pressed key. -/
def lowestKey (s : State) : Option Nibble := scanKeys s 16

/-! ## Timers (60_exceptions R217) -/

/-- One timer down by one, floor 0. -/
def countDown (t : Byte) : Byte := if t = 0x00#8 then 0x00#8 else t - 1#8

/-- One tick of both timers; nothing else changes. -/
def tick (s : State) : State := { s with DT := countDown s.DT, ST := countDown s.ST }

end Sys2Proof.Machine
end

