-- ==== Sys2Proof/Machine/Family012.lean ====
section
/-! DEFINITION. Families 0, 1 and 2: clear, return, jumps, call (41_family_0_1_2). -/

namespace Sys2Proof.Machine

/-- 00E0 `CLS` (R120). -/
def execCls (s : State) : Result := done (advance (clearFramebuffer s))

/-- 00EE `RET` (R121). The fault stop needs a value of `sp` that no run has (assumption log 7). -/
def execRet (s : State) : Result :=
  if s.sp.toNat = Config.stackTop then raise stackUnderflowRecord s
  else if popInMemory s.sp then done (jump (stackTopWord s) (pop s))
  else .fault .stackPointerOutsideMemory

/-- 0nnn `SYS nnn`, a jump (R122). -/
def execSys (nnn : Addr12) (s : State) : Result := done (jump (zextAddr nnn) s)

/-- 1nnn `JP nnn` (R123). -/
def execJp (nnn : Addr12) (s : State) : Result := done (jump (zextAddr nnn) s)

/-- 2nnn `CALL nnn`: the pushed value is `pc + 2` (R124). The fault stop as in RET. -/
def execCall (nnn : Addr12) (s : State) : Result :=
  if s.sp.toNat = Config.stackLimit then raise stackOverflowRecord s
  else if pushInMemory s.sp then done (jump (zextAddr nnn) (push (s.pc + 2#16) s))
  else .fault .stackPointerOutsideMemory

end Sys2Proof.Machine
end

