-- ==== Sys2Proof/Machine/Family3to7.lean ====
section
/-! DEFINITION. Families 3 to 7: skips on compare, load immediate, add immediate (42_family_3_to_7). -/

namespace Sys2Proof.Machine

/-- 3xkk `SE Vx, kk` (R130). -/
def execSeImm (x : Nibble) (kk : Byte) (s : State) : Result := done (skipIf (getV x s == kk) s)

/-- 4xkk `SNE Vx, kk` (R131). -/
def execSneImm (x : Nibble) (kk : Byte) (s : State) : Result := done (skipIf (getV x s != kk) s)

/-- 5xy0 `SE Vx, Vy` (R132). -/
def execSeReg (x y : Nibble) (s : State) : Result := done (skipIf (getV x s == getV y s) s)

/-- 6xkk `LD Vx, kk` (R133). -/
def execLdImm (x : Nibble) (kk : Byte) (s : State) : Result := writeReg x kk s

/-- 7xkk `ADD Vx, kk`, no flag (R134). -/
def execAddImm (x : Nibble) (kk : Byte) (s : State) : Result := writeReg x (sum8 (getV x s) kk) s

end Sys2Proof.Machine
end

