-- ==== Sys2Proof/Machine/Family8.lean ====
section
/-! DEFINITION. Family 8: the 8-bit ALU (43_family_8_alu). The five flagged instructions write VF first and read their operands
again for the result (R149). -/

namespace Sys2Proof.Machine

/-- 8xy0 `LD Vx, Vy` (R140). -/
def execLdReg (x y : Nibble) (s : State) : Result := writeReg x (getV y s) s

/-- 8xy1 `OR Vx, Vy` (R141). -/
def execOrReg (x y : Nibble) (s : State) : Result := writeReg x (getV x s ||| getV y s) s

/-- 8xy2 `AND Vx, Vy` (R142). -/
def execAndReg (x y : Nibble) (s : State) : Result := writeReg x (getV x s &&& getV y s) s

/-- 8xy3 `XOR Vx, Vy` (R143). -/
def execXorReg (x y : Nibble) (s : State) : Result := writeReg x (getV x s ^^^ getV y s) s

/-- 8xy4 `ADD Vx, Vy` (R144). -/
def execAddReg (x y : Nibble) (s : State) : Result := flagThenResult carryFlag sum8 x y s

/-- 8xy5 `SUB Vx, Vy` (R145). -/
def execSubReg (x y : Nibble) (s : State) : Result := flagThenResult greaterFlag diff8 x y s

/-- 8xy6 `SHR Vx`; `V[y]` is not used (R146, R88). -/
def execShr (x y : Nibble) (s : State) : Result :=
  flagThenResult (fun vx _ => lowBitFlag vx) (fun vx _ => shiftRight1 vx) x y s

/-- 8xy7 `SUBN Vx, Vy` (R147). -/
def execSubnReg (x y : Nibble) (s : State) : Result :=
  flagThenResult (fun vx vy => greaterFlag vy vx) (fun vx vy => diff8 vy vx) x y s

/-- 8xyE `SHL Vx`; `V[y]` is not used (R148, R88). -/
def execShl (x y : Nibble) (s : State) : Result :=
  flagThenResult (fun vx _ => highBitFlag vx) (fun vx _ => shiftLeft1 vx) x y s

end Sys2Proof.Machine
end

