-- ==== Sys2Proof/Machine/Family9toC.lean ====
section
/-! DEFINITION. Families 9, A, B and C: skip on inequality, load index, indexed jump, random (44_family_9_to_C). -/

namespace Sys2Proof.Machine

/-- 9xy0 `SNE Vx, Vy` (R160). -/
def execSneReg (x y : Nibble) (s : State) : Result := done (skipIf (getV x s != getV y s) s)

/-- Annn `LD I, nnn` (R161). -/
def execLdI (nnn : Addr12) (s : State) : Result := writeIndex (zextAddr nnn) s

/-- Bnnn `JP V0, nnn`: no masking to 12 bits (R162). -/
def execJpV0 (nnn : Addr12) (s : State) : Result := done (jump (zextByte (getV 0x0#4 s) + zextAddr nnn) s)

/-- Cxkk `RND Vx, kk`: the random byte is a free value, drawn anew (R163). -/
def execRnd (x : Nibble) (kk : Byte) (s : State) : Result :=
  let d := drawRnd s
  writeReg x (d.1 &&& kk) d.2

end Sys2Proof.Machine
end

