-- ==== Sys2Proof/Machine/FamilyD.lean ====
section
/-! DEFINITION. Family D: the sprite draw (45_family_D_draw). -/

namespace Sys2Proof.Machine

/-- Dxyn `DRW Vx, Vy, n` (R172): positions read before any write, VF written last, on every execution. -/
def execDrw (x y n : Nibble) (s : State) : Result :=
  ifInBounds s.I n.toNat s fun s =>
    let xpos := (getV x s).toNat % Config.displayW
    let ypos := (getV y s).toNat % Config.displayH
    let d := drawRows s.I.toNat xpos ypos n.toNat ⟨s.mem, false⟩
    writeReg VF (flagByte d.collision) { s with mem := d.mem }

end Sys2Proof.Machine
end

