-- ==== Sys2Proof/Machine/FamilyE.lean ====
section
/-! DEFINITION. Family E: skips on key state (46_family_E_keys). -/

namespace Sys2Proof.Machine

/-- Ex9E `SKP Vx` (R180, R182). -/
def execSkp (x : Nibble) (s : State) : Result := done (skipIf (getKey (keyOf (getV x s)) s) s)

/-- ExA1 `SKNP Vx` (R181, R182). -/
def execSknp (x : Nibble) (s : State) : Result := done (skipIf (!getKey (keyOf (getV x s)) s) s)

end Sys2Proof.Machine
end

