-- ==== Sys2Proof/Machine/FamilyF.lean ====
section
/-! DEFINITION. Family F: timers, key wait, index arithmetic, BCD, register block store and load (47_family_F). -/

namespace Sys2Proof.Machine

/-- Fx07 `LD Vx, DT`: DT before the tick of a coupled step (R185). -/
def execLdVxDT (x : Nibble) (s : State) : Result := writeReg x s.DT s

/-- Fx0A `LD Vx, K`: the least pressed key, or a poll (R186). -/
def execLdVxK (x : Nibble) (s : State) : Result :=
  match lowestKey s with
  | some k => writeReg x (k.setWidth 8) s
  | none => poll s

/-- Fx15 `LD DT, Vx` (R187). -/
def execLdDTVx (x : Nibble) (s : State) : Result := done (advance { s with DT := getV x s })

/-- Fx18 `LD ST, Vx` (R188). -/
def execLdSTVx (x : Nibble) (s : State) : Result := done (advance { s with ST := getV x s })

/-- Fx1E `ADD I, Vx`: wraps at 65536, no flag (R189). -/
def execAddIVx (x : Nibble) (s : State) : Result := writeIndex (s.I + zextByte (getV x s)) s

/-- Fx29 `LD F, Vx`: 5 × the whole `V[x]` (R190). -/
def execLdFVx (x : Nibble) (s : State) : Result :=
  writeIndex (BitVec.ofNat 16 (Config.glyphSize * (getV x s).toNat)) s

/-- Fx33 `LD B, Vx` (R191). -/
def execLdBVx (x : Nibble) (s : State) : Result :=
  ifInBounds s.I 3 s fun s =>
    done (advance { s with mem := s.mem.writeBytes s.I.toNat (bcdDigits (getV x s)) })

/-- Fx55 `LD [I], Vx`: I unchanged (R192). -/
def execStoreRegs (x : Nibble) (s : State) : Result :=
  ifInBounds s.I (x.toNat + 1) s fun s =>
    done (advance { s with mem := s.mem.writeBytes s.I.toNat (firstRegs (x.toNat + 1) s) })

/-- Fx65 `LD Vx, [I]`: I unchanged (R193). -/
def execLoadRegs (x : Nibble) (s : State) : Result :=
  ifInBounds s.I (x.toNat + 1) s fun s => done (advance (loadBlock s.I.toNat (x.toNat + 1) s))

end Sys2Proof.Machine
end

