-- ==== Sys2Proof/Machine/Cycle.lean ====
section
/-! DEFINITION. The fetch-decode-execute cycle (40_cycle): one step in each FSM state, and the placing of a word where the
next step fetches. Step.lean only names these. -/

namespace Sys2Proof.Machine

/-- The word the next fetch reads, `mem[pc] ++ mem[pc+1]` (R103, 20_memory R55). -/
def fetchWord (s : State) : Word := joinBytes (s.mem.read s.pc.toNat) (s.mem.read (s.pc.toNat + 1))

/-- Timer coupling (R108): a completing step, which leaves `fsm = Running` (R107), ends with one tick if TIMER_COUPLED. A poll
and a faulting step do not tick. -/
def tickIfCoupled (t : State) : State :=
  if t.fsm = .running ∧ t.timerCoupled = true then tick t else t

/-- The end of a step: the coupled tick after the execute phase. -/
def finish : Result → Result
  | .next t => .next (tickIfCoupled t)
  | .fault r => .fault r
  | .refused r => .refused r

/-- One step (R101 to R109): inert in Faulted; else fetch, decode, execute, and the coupled tick. -/
def cycle (s : State) : Result :=
  if s.fsm = .faulted then .next s
  else if outOfBounds s.pc 2 then raise (memoryOutOfBoundsRecord s.pc) s
  else
    match decodeWord (fetchWord s) with
    | some i => finish (exec i s)
    | none => raise (invalidOpcodeRecord (fetchWord s) s.pc) s

/-! ## The end of a run (40_cycle R112) -/

/-- The word at `pc` is in memory and is 1nnn with nnn = `pc`: the jump to its own address by which programs end. -/
def atSelfJump (s : State) : Bool :=
  !outOfBounds s.pc 2 && decodeWord (fetchWord s) == some (.jp (s.pc.setWidth 12))

/-- The model's end-of-run predicate, "A model must define its own" (R112): the core has faulted, or its next step is a
self-jump. DESIGN CHOICE: assumption log 24. A predicate on states, not a state: a step from one is still a step. -/
def runEnded (s : State) : Bool := s.fsm == .faulted || atSelfJump s

/-! ## Placing a word -/

/-- `s` ready to fetch: not Faulted, and `pc` where two bytes can be read. It changes nothing in a state that is so already. -/
def readyToFetch (s : State) : State :=
  let s1 := if s.fsm = .faulted then { s with fsm := .running, fault := .clear } else s
  if outOfBounds s1.pc 2 then { s1 with pc := BitVec.ofNat 16 Config.progBase } else s1

/-- `s` with the word `w` stored, high byte first, where the next step fetches (assumption log 10). -/
def placeWord (s : State) (w : Word) : State :=
  let r := readyToFetch s
  { r with mem := r.mem.writeBytes r.pc.toNat [highByte w, lowByte w] }

end Sys2Proof.Machine
end

