-- ==== Sys2Proof/Machine/Step.lean ====
section
/-! DEFINITION. The step of the machine, and the state with an instruction placed where it fetches. -/

namespace Sys2Proof.Machine

/-- The transaction `step` (40_cycle R100 to R111). The random byte is the free value that Cxkk draws. -/
def step (s : State) : Host.Outcome State Fault Refusal := cycle s

/-- `s` with the instruction whose opcode-table bits are `w` stored where `step` fetches next. Every instruction is one 16-bit
word (30_encoding R80), so the bits above `nbits` are zero up to 16. -/
def State.withFetchWord (s : State) (nbits w : Nat) : State := placeWord s (BitVec.ofNat 16 (w % 2 ^ nbits))

end Sys2Proof.Machine
end

