-- ==== Sys2Proof/Machine/Transactions.lean ====
section
/-! DEFINITION. The host's transactions (60_exceptions R231): reset, load, step, tick_timers, set_key, get_key, pixel and
sound_active, each atomic, one at a time (40_cycle R100, 20_memory R67). -/

namespace Sys2Proof.Machine

/-- A transaction with its arguments as the host gives them; an argument out of range is refused. -/
inductive Transaction where
  | reset
  | load (image : List Byte)
  | step
  | tickTimers
  | setKey (k : Nat) (pressed : Bool)
  | getKey (k : Nat)
  | pixel (px py : Nat)
  | soundActive
  deriving DecidableEq, Repr

/-- What a transaction returns (the "result" column of R231). -/
inductive Reply where
  /-- no result: reset, tick_timers, set_key -/
  | unit
  /-- `Ok`: load, step -/
  | ok
  /-- `Err(fault)`: step -/
  | err (fault : FaultRecord)
  /-- `Err(RomTooLarge)`: load (R206, 70_reset R248) -/
  | romTooLarge
  /-- the boolean of a query -/
  | bool (b : Bool)
  deriving DecidableEq, Repr

/-- The core and the one thing the host contract adds to it: whether `load` may be made, which is so right after `reset` and
until any other transaction is made (70_reset R249, decision D17). The core has no such register; assumption log 8. -/
structure Session where
  core : State
  loadOpen : Bool
  deriving DecidableEq, Repr

/-- A session right after the first reset. -/
def Session.reset : Session := ⟨State.reset, true⟩

/-- A session in which a transaction has been made since the last `reset`, so that `load` has no move any more (D17). -/
def Session.used (core : State) : Session := ⟨core, false⟩

/-- A transaction's answer and the session it leaves, or a stop. -/
abbrev TransactionResult := Host.Outcome (Reply × Session) Fault Refusal

/-- `reset` on a live core: every piece of state to its reset value; the parameters stay, and so does the model's draw counter,
so that random bytes drawn later are new ones (70_reset R240; assumption log 4). -/
def resetCore (s : State) : State := State.resetWith s.mem.font s.timerCoupled s.draws

/-- The copy of `load`: `mem[0x200 + i] <- image[i]` (70_reset R247). -/
def loadImage (image : List Byte) (s : State) : State := { s with mem := s.mem.writeBytes Config.progBase image }

/-- `sound_active`: exactly when ST is not 0 (60_exceptions R225). -/
def soundActive (s : State) : Bool := s.ST != 0x00#8

/-- What `step` returns: `Err(fault)` for a faulting step and in Faulted, `Ok` otherwise (40_cycle R109). -/
def stepReply (t : State) : Reply := if t.fsm = .faulted then .err t.fault else .ok

/-- `load(image)` (70_reset R247 to R249): too large an image copies nothing and leaves the core in its reset state. Either way
it was the one `load` of this reset (60_exceptions R229), and it is defined only as the first transaction after `reset` (D17). -/
def transactLoad (image : List Byte) (q : Session) : TransactionResult :=
  if q.loadOpen then
    if Config.maxImage < image.length then .next (.romTooLarge, .used q.core)
    else .next (.ok, .used (loadImage image q.core))
  else .refused .loadOutsideContract

/-- `step` (40_cycle R101 to R109). -/
def transactStep (q : Session) : TransactionResult :=
  match step q.core with
  | .next t => .next (stepReply t, .used t)
  | .fault r => .fault r
  | .refused r => .refused r

/-- One transaction (R231). All but `load` are allowed in every FSM state (R218, R222, R230); `load` only first after `reset`. -/
def transact (x : Transaction) (q : Session) : TransactionResult :=
  match x with
  | .reset => .next (.unit, ⟨resetCore q.core, true⟩)
  | .load image => transactLoad image q
  | .step => transactStep q
  | .tickTimers => .next (.unit, .used (tick q.core))
  | .setKey k pressed =>
    if k < Config.numKeys then .next (.unit, .used (Sys2Proof.Machine.setKey (BitVec.ofNat 4 k) pressed q.core))
    else .refused .argumentOutOfRange
  | .getKey k =>
    if k < Config.numKeys then .next (.bool (Sys2Proof.Machine.getKey (BitVec.ofNat 4 k) q.core), .used q.core)
    else .refused .argumentOutOfRange
  | .pixel px py =>
    if px < Config.displayW ∧ py < Config.displayH then .next (.bool (pixelLit q.core.mem px py), .used q.core)
    else .refused .argumentOutOfRange
  | .soundActive => .next (.bool (Sys2Proof.Machine.soundActive q.core), .used q.core)

/-- Transactions made one after another, in the order given: an execution is a total order of transactions (20_memory R67).
Stops at the first one that stops. -/
def transactAll : List Transaction → Session → Host.Outcome Session Fault Refusal
  | [], q => .next q
  | x :: xs, q =>
    match transact x q with
    | .next (_, q1) => transactAll xs q1
    | .fault r => .fault r
    | .refused r => .refused r

end Sys2Proof.Machine
end

