-- ==== Sys2Proof/Safety.lean ====
section
/-! DEFINITION. The terms claims are stated in: the invariant of a run, what a step may leave unchanged (frames), which
instructions write what, and the pixels a sprite covers. -/

namespace Sys2Proof.Machine

/-! ## The invariant of a run -/

/-- `sp` is 0x6CF - 2·d for a number d of stacked return addresses, 0 to 16 (10_state R29). -/
abbrev LegalSp (sp : Word) : Prop := ∃ d ∈ List.range 17, sp.toNat + 2 * d = Config.stackTop

/-- The fault record and the state agree: a record is latched exactly in Faulted, and it says why the step that `pc` still
addresses could not run (60_exceptions R201 to R204, R211, R212). -/
abbrev FaultExplained (s : State) : Prop :=
  (s.fsm = .faulted ↔ s.fault.kind ≠ .none) ∧
  (s.fault.kind = .none → s.fault = .clear) ∧
  (s.fault.kind = .invalidOpcode →
    s.fault = invalidOpcodeRecord (fetchWord s) s.pc ∧ outOfBounds s.pc 2 = false ∧ decodeWord (fetchWord s) = none) ∧
  (s.fault.kind = .stackOverflow → s.fault = stackOverflowRecord ∧ s.sp.toNat = Config.stackLimit) ∧
  (s.fault.kind = .stackUnderflow → s.fault = stackUnderflowRecord ∧ s.sp.toNat = Config.stackTop) ∧
  (s.fault.kind = .memoryOutOfBounds →
    (s.fault = memoryOutOfBoundsRecord s.pc ∧ outOfBounds s.pc 2 = true) ∨
      (s.fault = memoryOutOfBoundsRecord s.I ∧ outOfBounds s.I 16 = true))

/-- Is the instruction Fx0A. -/
def isKeyWait : Option Instr → Bool
  | some (.ldVxK _) => true
  | _ => false

/-- The next fetch is in memory and its word is an Fx0A. -/
abbrev FetchesKeyWait (s : State) : Prop := outOfBounds s.pc 2 = false ∧ isKeyWait (decodeWord (fetchWord s)) = true

/-- "in that state `pc` points at an Fx0A instruction" (10_state R35). -/
abbrev WaitingAtKeyWait (s : State) : Prop := s.fsm = .waitingForKey → FetchesKeyWait s

/-- What holds of every state of a run. -/
abbrev State.Inv (s : State) : Prop := s.mem.wf ∧ LegalSp s.sp ∧ FaultExplained s ∧ WaitingAtKeyWait s

/-- What holds of every session of a run: while `load` may be made the core is as `reset` leaves it (70_reset R249, D17). -/
abbrev Session.Inv (q : Session) : Prop :=
  q.core.Inv ∧
    (q.loadOpen = true → q.core = State.resetWith q.core.mem.font q.core.timerCoupled q.core.draws)

/-! ## Frames -/

/-- The registers beside V, pc and fsm that some instruction writes. -/
inductive Special where
  | I
  | sp
  | DT
  | ST
  | draws
  deriving DecidableEq, Repr

/-- Every V register but those listed is unchanged. -/
def KeepsRegs (regs : List Nibble) (s t : State) : Prop := ∀ r, r ∉ regs → getV r t = getV r s

/-- Every register beside V, pc and fsm but those listed is unchanged, and so are the key latch, the fault record and the
parameters. -/
def KeepsSpecials (specials : List Special) (s t : State) : Prop :=
  (.I ∉ specials → t.I = s.I) ∧ (.sp ∉ specials → t.sp = s.sp) ∧ (.DT ∉ specials → t.DT = s.DT) ∧
  (.ST ∉ specials → t.ST = s.ST) ∧ (.draws ∉ specials → t.draws = s.draws) ∧
  t.keys = s.keys ∧ t.fault = s.fault ∧ t.timerCoupled = s.timerCoupled ∧ t.mem.font = s.mem.font

/-- The register part of a frame. -/
def Frame (regs : List Nibble) (specials : List Special) (s t : State) : Prop :=
  KeepsRegs regs s t ∧ KeepsSpecials specials s t

/-- Every byte of memory reads as before. -/
def KeepsMem (s t : State) : Prop := ∀ a, t.mem.read a = s.mem.read a

/-- Every byte outside the `m` bytes from `a` reads as before. -/
def KeepsMemOutside (a m : Nat) (s t : State) : Prop := ∀ b, b < a ∨ a + m ≤ b → t.mem.read b = s.mem.read b

/-! ## Which instruction may write what (10_state R22, R27 to R32; 20_memory R60; 60_exceptions R207) -/

/-- May the instruction write the register (R22, with VF as a flag by R27). -/
def writesV (i : Instr) (r : Nibble) : Bool :=
  match i with
  | .ldImm x _ | .addImm x _ | .ldReg x _ | .orReg x _ | .andReg x _ | .xorReg x _ | .rnd x _ | .ldVxDT x | .ldVxK x => r == x
  | .addReg x _ | .subReg x _ | .shr x _ | .subnReg x _ | .shl x _ => r == x || r == VF
  | .drw _ _ _ => r == VF
  | .loadRegs x => decide (r.toNat ≤ x.toNat)
  | _ => false

/-- The registers beside V, pc and fsm that the instruction may write (R28 to R31, R36). -/
def writesSpecials : Instr → List Special
  | .ret | .call _ => [.sp]
  | .ldI _ | .addIVx _ | .ldFVx _ => [.I]
  | .ldDTVx _ => [.DT]
  | .ldSTVx _ => [.ST]
  | .rnd _ _ => [.draws]
  | _ => []

/-- The run of bytes the instruction may write, its start and its length (R60). -/
def storesTo (i : Instr) (s : State) : Nat × Nat :=
  match i with
  | .cls | .drw _ _ _ => (Config.fbBase, Config.fbSize)
  | .call _ => (s.sp.toNat - 1, 2)
  | .ldBVx _ => (s.I.toNat, 3)
  | .storeRegs x => (s.I.toNat, x.toNat + 1)
  | _ => (0, 0)

/-- The faults the execute phase of the instruction can raise (R207). -/
def mayRaise : Instr → FaultKind → Bool
  | .ret, .stackUnderflow => true
  | .call _, .stackOverflow => true
  | .drw _ _ _, .memoryOutOfBounds | .ldBVx _, .memoryOutOfBounds => true
  | .storeRegs _, .memoryOutOfBounds | .loadRegs _, .memoryOutOfBounds => true
  | _, _ => false

/-- Where `pc` leaves memory the next step takes MemoryOutOfBounds at its fetch, whether or not the timers tick before it, with
address 0x1000 where `pc` is 0xFFF (40_cycle R103, 41_family_0_1_2 R123). -/
def NextFetchLeaves (t : State) : Prop :=
  0xFFE < t.pc.toNat → ∀ u, u = t ∨ u = tick t →
    ∃ f : FaultRecord, step u = .next { u with fsm := .faulted, fault := f } ∧ f.kind = .memoryOutOfBounds ∧
      (t.pc.toNat = 0xFFF → f.address = 0x1000#16)

/-- The next fetch, if it reads address `a`, reads the byte `b` there: as the high byte of its word at `pc`, as the low byte at
`pc + 1` (20_memory R55, R70). -/
def FetchesByte (t : State) (a : Nat) (b : Byte) : Prop :=
  (t.pc.toNat = a → highByte (fetchWord t) = b) ∧ (t.pc.toNat + 1 = a → lowByte (fetchWord t) = b)

/-- An outcome with `f` applied to its next state. -/
def mapNext (f : State → State) : Result → Result
  | .next t => .next (f t)
  | .fault r => .fault r
  | .refused r => .refused r

/-! ## The draw in pixel terms (45_family_D R171, R173) -/

/-- The sprite bit that lands on pixel (px, py) when `n` rows are drawn with their left end at (xpos, ypos), wrapping on both
axes: bit `7 - c` of sprite byte `r`, for the pixel `c` columns right of and `r` rows below that corner. -/
def spriteBit (s : State) (xpos ypos n px py : Nat) : Bool :=
  let r := (py + 32 - ypos) % 32
  let c := (px + 64 - xpos) % 64
  decide (r < n ∧ c < 8) && (s.mem.read (s.I.toNat + r)).getLsbD (7 - c)

/-- The sprite's bytes are in memory and none of them is a framebuffer byte. -/
def SpriteApart (s : State) (n : Nat) : Prop :=
  ∀ r, r < n → s.I.toNat + r ≤ 0xFFF ∧ (s.I.toNat + r < 0x700 ∨ 0x800 ≤ s.I.toNat + r)

end Sys2Proof.Machine
end

