-- ==== Sys2Proof/Certificates/Slice0/Obligations.lean ====
section
/-! DEFINITION. The statements for the provers, from the numbered rules of spec/. Each docstring names the rules, and the spec's
own decisions or the model's choices where a statement rests on one. -/

open Sys2Proof Sys2Proof.Machine

/-- Decoding an encoded well-formed instruction gives it back, every operand at every value. 30_encoding R81, R82, R86: no
bit of an encoding is dropped. -/
def Obligations.DecodeEncodeRoundTrip : Prop :=
  ∀ (i : Instr) (rest : List Byte), i.wellFormed = true →
    decodeWord (encode i) = some i ∧ decode (encodeBytes i ++ rest) = .ok (i, rest)

/-- A word that decodes is the encoding of what it decodes to, and that instruction is well-formed. 30_encoding R84: "the
unique row". -/
def Obligations.EncodeDecodeRoundTrip : Prop :=
  ∀ (w : Word) (i : Instr), decodeWord w = some i → i.wellFormed = true ∧ encode i = w

/-- The decoder selects the row of the opcode map by mask and match, and rows overlap only at CLS and RET. 30_encoding R84
and R86. Exact patterns are the spec's decision D26 (assumption log 19). -/
def Obligations.DecodeFollowsOpcodeMap : Prop :=
  (∀ w : Word, (decodeWord w).map Instr.mnemonic = (opcodeMap.find? (fun r => r.selects w)).map OpcodeRow.mnemonic) ∧
  (∀ (w : Word) (r r' : OpcodeRow), r ∈ opcodeMap → r' ∈ opcodeMap → r ≠ r' → r.selects w = true → r'.selects w = true →
    (w = 0x00E0#16 ∨ w = 0x00EE#16) ∧ (r.mnemonic = "SYS_nnn" ∨ r'.mnemonic = "SYS_nnn"))

/-- The illegal words are exactly those the spec lists. 30_encoding R89, R90. That 5xyN and 9xyN with N not 0 are illegal is
the spec's decision D26 (assumption log 19). -/
def Obligations.IllegalWords : Prop :=
  ∀ w : Word, decodeWord w = none ↔
    ((fieldOp w = 0x5#4 ∨ fieldOp w = 0x9#4) ∧ fieldN w ≠ 0x0#4) ∨
    (fieldOp w = 0x8#4 ∧ fieldN w ∈ [0x8#4, 0x9#4, 0xA#4, 0xB#4, 0xC#4, 0xD#4, 0xF#4]) ∨
    (fieldOp w = 0xE#4 ∧ fieldKK w ∉ [0x9E#8, 0xA1#8]) ∨
    (fieldOp w = 0xF#4 ∧ fieldKK w ∉ [0x07#8, 0x0A#8, 0x15#8, 0x18#8, 0x1E#8, 0x29#8, 0x33#8, 0x55#8, 0x65#8])

/-- Words written out from the spec decode to the instructions they stand for, one or more of each family. 95_test_vectors
Part 4, spot checks; families 4, 6, 7, 9 and B from its vectors and R86, 8AB8 from R89. A sanity statement. -/
def Obligations.SampleWordsDecode : Prop :=
  decodeWord 0x00E0#16 = some .cls ∧ decodeWord 0x00E1#16 = some (.sys 0x0E1#12) ∧ decodeWord 0x00EE#16 = some .ret ∧
  decodeWord 0x1204#16 = some (.jp 0x204#12) ∧ decodeWord 0x2208#16 = some (.call 0x208#12) ∧
  decodeWord 0x332A#16 = some (.seImm 0x3#4 0x2A#8) ∧ decodeWord 0x5AB0#16 = some (.seReg 0xA#4 0xB#4) ∧
  decodeWord 0x5AB1#16 = none ∧ decodeWord 0x8AB6#16 = some (.shr 0xA#4 0xB#4) ∧
  decodeWord 0x8ABE#16 = some (.shl 0xA#4 0xB#4) ∧ decodeWord 0x8AB8#16 = none ∧ decodeWord 0x9ABF#16 = none ∧
  decodeWord 0xA300#16 = some (.ldI 0x300#12) ∧ decodeWord 0xC10F#16 = some (.rnd 0x1#4 0x0F#8) ∧
  decodeWord 0xD123#16 = some (.drw 0x1#4 0x2#4 0x3#4) ∧ decodeWord 0xE19E#16 = some (.skp 0x1#4) ∧
  decodeWord 0x4001#16 = some (.sneImm 0x0#4 0x01#8) ∧ decodeWord 0x6AAB#16 = some (.ldImm 0xA#4 0xAB#8) ∧
  decodeWord 0x7A05#16 = some (.addImm 0xA#4 0x05#8) ∧ decodeWord 0x9AB0#16 = some (.sneReg 0xA#4 0xB#4) ∧
  decodeWord 0xB300#16 = some (.jpV0 0x300#12) ∧ decodeWord 0xE1A1#16 = some (.sknp 0x1#4) ∧
  decodeWord 0xE1A0#16 = none ∧ decodeWord 0xF165#16 = some (.loadRegs 0x1#4) ∧ decodeWord 0xF175#16 = none

/-- After reset pc is 0x200, sp is 0x6CF, every V register is 0 and the FSM is Running. 70_reset_and_hazards R242, R245. -/
def Obligations.ResetRegisters : Prop :=
  (∀ (font : Font) (tc : Bool) (d : Nat) (r : Nibble),
    (State.resetWith font tc d).pc = 0x0200#16 ∧ (State.resetWith font tc d).sp = 0x06CF#16 ∧
    getV r (State.resetWith font tc d) = 0x00#8 ∧ (State.resetWith font tc d).fsm = .running) ∧
  ∃ (font : Font) (tc : Bool) (d : Nat), State.reset = State.resetWith font tc d

/-- After reset memory is FONT in [0x000, 0x050) and zero everywhere else, whatever FONT is. 70_reset_and_hazards R241. FONT
is an OPEN parameter: the statement holds for every value of it. -/
def Obligations.ResetMemory : Prop :=
  ∀ (font : Font) (tc : Bool) (d : Nat),
    (∀ (g r : Nat) (hg : g < 16) (hr : r < 5),
      (State.resetWith font tc d).mem.read (5 * g + r) = font[5 * g + r]'(by omega)) ∧
    (∀ a : Nat, 0x050 ≤ a → a ≤ 0xFFF → (State.resetWith font tc d).mem.read a = 0x00#8) ∧
    (∀ px py : Nat, px < 64 → py < 32 → pixelLit (State.resetWith font tc d).mem px py = false)

/-- The reset transaction answers in every session, Faulted too, and leaves the reset state (I, DT, ST, keys, fault: decision
D14). 70_reset_and_hazards R240, R243. Reset as a transaction is decision D1; the values of I, DT, ST, keys and fault are
decision D14 (assumption log 1); the draw counter is the model's own (assumption log 4). -/
def Obligations.ResetTransaction : Prop :=
  ∀ q : Session, ∃ q' : Session, transact .reset q = .next (.unit, q') ∧ q'.loadOpen = true ∧
    (∃ d, q'.core = State.resetWith q.core.mem.font q.core.timerCoupled d) ∧
    q'.core.I = 0x0000#16 ∧ q'.core.DT = 0x00#8 ∧ q'.core.ST = 0x00#8 ∧ (∀ k : Nibble, getKey k q'.core = false) ∧
    q'.core.fault = ⟨.none, 0x0000#16, 0x0000#16, 0x0000#16⟩ ∧ soundActive q'.core = false

/-- 00E0 clears the 256 framebuffer bytes and nothing else, and never faults. 41_family_0_1_2 R120. -/
def Obligations.ClsClearsFramebuffer : Prop :=
  decodeWord 0x00E0#16 = some .cls ∧
  ∀ s : State, ∃ t, exec .cls s = .next t ∧ t.fsm = .running ∧ t.pc = s.pc + 2#16 ∧
    (∀ a, 0x700 ≤ a → a ≤ 0x7FF → t.mem.read a = 0x00#8) ∧ KeepsMemOutside 0x700 256 s t ∧ Frame [] [] s t

/-- 00EE pops the return address; on the empty stack it takes StackUnderflow; it stops only where sp leaves memory.
41_family_0_1_2 R121, 60_exceptions R203. The slot placement and byte order are decisions D4, D5, the depth D7 (assumption
log 11); the stop outside the 17 values of sp is the model's (assumption log 7). -/
def Obligations.RetPopsReturnAddress : Prop :=
  ∀ s : State,
    (s.sp.toNat ≠ 0x6CF → s.sp.toNat + 2 ≤ 0xFFF →
      ∃ t, exec .ret s = .next t ∧ t.fsm = .running ∧
        t.pc = joinBytes (s.mem.read (s.sp.toNat + 1)) (s.mem.read (s.sp.toNat + 2)) ∧
        t.sp.toNat = s.sp.toNat + 2 ∧ KeepsMem s t ∧ Frame [] [.sp] s t) ∧
    (s.sp.toNat = 0x6CF →
      exec .ret s = .next { s with fsm := .faulted, fault := ⟨.stackUnderflow, 0x0000#16, 0x0000#16, 0x0000#16⟩ }) ∧
    (0xFFF < s.sp.toNat + 2 → exec .ret s = .fault .stackPointerOutsideMemory)

/-- 2nnn pushes pc + 2 and jumps; on the full stack it takes StackOverflow; it stops only where sp leaves memory.
41_family_0_1_2 R124, 60_exceptions R202. Slot placement, byte order, pushed value and depth are decisions D4, D5, D6, D7
(assumption log 11); the stop outside the 17 values of sp is the model's (assumption log 7). -/
def Obligations.CallPushesReturnAddress : Prop :=
  ∀ (nnn : Addr12) (s : State),
    (s.sp.toNat ≠ 0x6AF → 1 ≤ s.sp.toNat → s.sp.toNat ≤ 0xFFF →
      ∃ t, exec (.call nnn) s = .next t ∧ t.fsm = .running ∧ t.pc.toNat = nnn.toNat ∧ t.sp = s.sp - 2#16 ∧
        joinBytes (t.mem.read (s.sp.toNat - 1)) (t.mem.read s.sp.toNat) = s.pc + 2#16 ∧
        KeepsMemOutside (s.sp.toNat - 1) 2 s t ∧ Frame [] [.sp] s t) ∧
    (s.sp.toNat = 0x6AF →
      exec (.call nnn) s =
        .next { s with fsm := .faulted, fault := ⟨.stackOverflow, 0x0000#16, 0x0000#16, 0x0000#16⟩ }) ∧
    (s.sp.toNat = 0 ∨ 0xFFF < s.sp.toNat → exec (.call nnn) s = .fault .stackPointerOutsideMemory)

/-- A call followed at once by a return comes back to the instruction after the call with sp as before. 95_test_vectors S5,
the source's own property. Rests on decisions D4, D5, D6 (assumption log 11). -/
def Obligations.CallThenRetReturns : Prop :=
  ∀ (nnn : Addr12) (s : State), LegalSp s.sp → s.sp.toNat ≠ 0x6AF →
    ∃ t u, exec (.call nnn) s = .next t ∧ exec .ret t = .next u ∧ u.fsm = .running ∧ u.pc = s.pc + 2#16 ∧ u.sp = s.sp ∧
      KeepsMemOutside (s.sp.toNat - 1) 2 s u ∧ Frame [] [] s u

/-- 0nnn and 1nnn set pc to nnn, Bnnn to V0 + nnn without masking, Annn sets I to nnn; none can fault. 41_family_0_1_2 R122,
R123; 44_family_9_to_C R161, R162. -/
def Obligations.JumpsAndIndexLoad : Prop :=
  ∀ (nnn : Addr12) (s : State),
    (∃ t, exec (.sys nnn) s = .next t ∧ t.fsm = .running ∧ t.pc.toNat = nnn.toNat ∧ KeepsMem s t ∧ Frame [] [] s t) ∧
    (nnn ≠ 0x0E0#12 → nnn ≠ 0x0EE#12 → decodeWord (formatNNN 0x0#4 nnn) = some (.sys nnn)) ∧
    decodeWord (formatNNN 0x1#4 nnn) = some (.jp nnn) ∧ decodeWord (formatNNN 0xA#4 nnn) = some (.ldI nnn) ∧
    decodeWord (formatNNN 0xB#4 nnn) = some (.jpV0 nnn) ∧
    (∃ t, exec (.jp nnn) s = .next t ∧ t.fsm = .running ∧ t.pc.toNat = nnn.toNat ∧ NextFetchLeaves t ∧
      KeepsMem s t ∧ Frame [] [] s t) ∧
    (∃ t, exec (.jpV0 nnn) s = .next t ∧ t.fsm = .running ∧ t.pc.toNat = (getV 0x0#4 s).toNat + nnn.toNat ∧
      t.pc.toNat ≤ 0x10FE ∧ NextFetchLeaves t ∧ KeepsMem s t ∧ Frame [] [] s t) ∧
    (∃ t, exec (.ldI nnn) s = .next t ∧ t.fsm = .running ∧ t.pc = s.pc + 2#16 ∧ t.I.toNat = nnn.toNat ∧
      KeepsMem s t ∧ Frame [] [.I] s t)

/-- 3xkk, 4xkk, 5xy0 and 9xy0 add 4 to pc if their condition holds and 2 if not, and change nothing else. 42_family_3_to_7
R130, R131 (and, from R132 and 44_family_9_to_C R160, the effect of the two register forms). -/
def Obligations.SkipsOnCompare : Prop :=
  ∀ (x y : Nibble) (kk : Byte) (s : State),
    decodeWord (formatXKK 0x3#4 x kk) = some (.seImm x kk) ∧ decodeWord (formatXKK 0x4#4 x kk) = some (.sneImm x kk) ∧
    decodeWord (formatXYN 0x5#4 x y 0x0#4) = some (.seReg x y) ∧ decodeWord (formatXYN 0x9#4 x y 0x0#4) = some (.sneReg x y) ∧
    (∃ t, exec (.seImm x kk) s = .next t ∧ t.fsm = .running ∧
      t.pc = (if getV x s = kk then s.pc + 4#16 else s.pc + 2#16) ∧ NextFetchLeaves t ∧
      KeepsMem s t ∧ Frame [] [] s t) ∧
    (∃ t, exec (.sneImm x kk) s = .next t ∧ t.fsm = .running ∧
      t.pc = (if getV x s ≠ kk then s.pc + 4#16 else s.pc + 2#16) ∧ NextFetchLeaves t ∧
      KeepsMem s t ∧ Frame [] [] s t) ∧
    (∃ t, exec (.seReg x y) s = .next t ∧ t.fsm = .running ∧
      t.pc = (if getV x s = getV y s then s.pc + 4#16 else s.pc + 2#16) ∧ NextFetchLeaves t ∧
      KeepsMem s t ∧ Frame [] [] s t) ∧
    (∃ t, exec (.sneReg x y) s = .next t ∧ t.fsm = .running ∧
      t.pc = (if getV x s ≠ getV y s then s.pc + 4#16 else s.pc + 2#16) ∧ NextFetchLeaves t ∧
      KeepsMem s t ∧ Frame [] [] s t)

/-- 6xkk loads kk, 7xkk adds kk modulo 256 with no flag, VF as plain destination included. 42_family_3_to_7 R133, R134. -/
def Obligations.ImmediateLoadAndAdd : Prop :=
  ∀ (x : Nibble) (kk : Byte) (s : State),
    decodeWord (formatXKK 0x6#4 x kk) = some (.ldImm x kk) ∧ decodeWord (formatXKK 0x7#4 x kk) = some (.addImm x kk) ∧
    (∃ t, exec (.ldImm x kk) s = .next t ∧ t.fsm = .running ∧ t.pc = s.pc + 2#16 ∧ getV x t = kk ∧
      KeepsMem s t ∧ Frame [x] [] s t) ∧
    (∃ t, exec (.addImm x kk) s = .next t ∧ t.fsm = .running ∧ t.pc = s.pc + 2#16 ∧
      (getV x t).toNat = ((getV x s).toNat + kk.toNat) % 256 ∧ KeepsMem s t ∧ Frame [x] [] s t)

/-- 8xy0 to 8xy3 move, OR, AND and XOR bit by bit, and write no flag. 43_family_8_alu R140 to R143. -/
def Obligations.MoveAndLogic : Prop :=
  ∀ (x y : Nibble) (s : State),
    decodeWord (formatXYN 0x8#4 x y 0x0#4) = some (.ldReg x y) ∧ decodeWord (formatXYN 0x8#4 x y 0x1#4) = some (.orReg x y) ∧
    decodeWord (formatXYN 0x8#4 x y 0x2#4) = some (.andReg x y) ∧ decodeWord (formatXYN 0x8#4 x y 0x3#4) = some (.xorReg x y) ∧
    (∃ t, exec (.ldReg x y) s = .next t ∧ t.fsm = .running ∧ t.pc = s.pc + 2#16 ∧ getV x t = getV y s ∧
      KeepsMem s t ∧ Frame [x] [] s t) ∧
    (∃ t, exec (.orReg x y) s = .next t ∧ t.fsm = .running ∧ t.pc = s.pc + 2#16 ∧
      (∀ j, (getV x t).getLsbD j = ((getV x s).getLsbD j || (getV y s).getLsbD j)) ∧ KeepsMem s t ∧ Frame [x] [] s t) ∧
    (∃ t, exec (.andReg x y) s = .next t ∧ t.fsm = .running ∧ t.pc = s.pc + 2#16 ∧
      (∀ j, (getV x t).getLsbD j = ((getV x s).getLsbD j && (getV y s).getLsbD j)) ∧ KeepsMem s t ∧ Frame [x] [] s t) ∧
    (∃ t, exec (.xorReg x y) s = .next t ∧ t.fsm = .running ∧ t.pc = s.pc + 2#16 ∧
      (∀ j, (getV x t).getLsbD j = ((getV x s).getLsbD j ^^ (getV y s).getLsbD j)) ∧ KeepsMem s t ∧ Frame [x] [] s t)

/-- 8xy4 writes the carry to VF and the sum to V[x], with the spec's outcome in each case of x or y being VF. 43_family_8_alu
R144. The cases with x or y = 15 rest on the spec's decision D25 (assumption log 17). -/
def Obligations.AddRegisterCases : Prop :=
  ∀ (x y : Nibble) (s : State), ∃ t, exec (.addReg x y) s = .next t ∧ t.fsm = .running ∧ t.pc = s.pc + 2#16 ∧
    KeepsMem s t ∧ Frame [x, VF] [] s t ∧
    (let vx := (getV x s).toNat
     let vy := (getV y s).toNat
     let c := if vx + vy > 255 then 1 else 0
     (x ≠ VF → y ≠ VF → (getV x t).toNat = (vx + vy) % 256 ∧ (getV VF t).toNat = c) ∧
     (x ≠ VF → y = VF → (getV x t).toNat = (vx + c) % 256 ∧ (getV VF t).toNat = c) ∧
     (x = VF → y ≠ VF → (getV VF t).toNat = (c + vy) % 256) ∧
     (x = VF → y = VF → (getV VF t).toNat = 2 * c))

/-- 8xy5 and 8xy7 write strict greater-than to VF and the difference to V[x], in each case of x or y being VF.
43_family_8_alu R145, R147. The cases with x or y = 15 rest on the spec's decision D25 (assumption log 17). -/
def Obligations.SubtractRegisterCases : Prop :=
  ∀ (x y : Nibble) (s : State),
    (∃ t, exec (.subReg x y) s = .next t ∧ t.fsm = .running ∧ t.pc = s.pc + 2#16 ∧ KeepsMem s t ∧ Frame [x, VF] [] s t ∧
      (let vx := (getV x s).toNat
       let vy := (getV y s).toNat
       let c := if vx > vy then 1 else 0
       (x ≠ VF → y ≠ VF → (getV x t).toNat = (vx + 256 - vy) % 256 ∧ (getV VF t).toNat = c) ∧
       (x ≠ VF → y = VF → (getV x t).toNat = (vx + 256 - c) % 256 ∧ (getV VF t).toNat = c) ∧
       (x = VF → y ≠ VF → (getV VF t).toNat = (c + 256 - vy) % 256) ∧
       (x = VF → y = VF → (getV VF t).toNat = 0))) ∧
    (∃ t, exec (.subnReg x y) s = .next t ∧ t.fsm = .running ∧ t.pc = s.pc + 2#16 ∧ KeepsMem s t ∧ Frame [x, VF] [] s t ∧
      (let vx := (getV x s).toNat
       let vy := (getV y s).toNat
       let c := if vy > vx then 1 else 0
       (x ≠ VF → y ≠ VF → (getV x t).toNat = (vy + 256 - vx) % 256 ∧ (getV VF t).toNat = c) ∧
       (x ≠ VF → y = VF → (getV x t).toNat = (c + 256 - vx) % 256 ∧ (getV VF t).toNat = c) ∧
       (x = VF → y ≠ VF → (getV VF t).toNat = (vy + 256 - c) % 256) ∧
       (x = VF → y = VF → (getV VF t).toNat = 0)))

/-- 8xy6 and 8xyE shift V[x] by one bit and put the bit shifted out in VF; y changes nothing. 43_family_8_alu R146, R148;
30_encoding R88. The case x = 15 rests on the spec's decision D25 (assumption log 17). -/
def Obligations.ShiftCases : Prop :=
  ∀ (x y : Nibble) (s : State),
    (∃ t, exec (.shr x y) s = .next t ∧ t.fsm = .running ∧ t.pc = s.pc + 2#16 ∧ KeepsMem s t ∧ Frame [x, VF] [] s t ∧
      (x ≠ VF → (getV x t).toNat = (getV x s).toNat / 2 ∧ (getV VF t).toNat = (getV x s).toNat % 2) ∧
      (x = VF → getV VF t = 0x00#8)) ∧
    (∃ t, exec (.shl x y) s = .next t ∧ t.fsm = .running ∧ t.pc = s.pc + 2#16 ∧ KeepsMem s t ∧ Frame [x, VF] [] s t ∧
      (x ≠ VF → (getV x t).toNat = 2 * (getV x s).toNat % 256 ∧
        (getV VF t).toNat = if (getV x s).toNat ≥ 128 then 1 else 0) ∧
      (x = VF → (getV VF t).toNat = if (getV x s).toNat ≥ 128 then 2 else 0)) ∧
    (∀ y' : Nibble, exec (.shr x y') s = exec (.shr x y) s ∧ exec (.shl x y') s = exec (.shl x y) s)

/-- The addition law: carry and sum for 8xy4, the same sum with no record for 7xkk, the 16-bit sums of Fx1E and Bnnn.
43_family_8_alu R151. -/
def Obligations.AdditionLaw : Prop :=
  ∀ (x y : Nibble) (kk : Byte) (nnn : Addr12) (s : State),
    (x ≠ VF → y ≠ VF → ∃ t, exec (.addReg x y) s = .next t ∧
      (getV x s).toNat + (getV y s).toNat = 256 * (getV VF t).toNat + (getV x t).toNat ∧
      (getV x t).toNat = ((getV x s).toNat + (getV y s).toNat) % 256 ∧
      (getV VF t).toNat = if (getV x s).toNat + (getV y s).toNat > 255 then 1 else 0) ∧
    (∃ t, exec (.addImm x kk) s = .next t ∧ (getV x t).toNat = ((getV x s).toNat + kk.toNat) % 256 ∧
      (x ≠ VF → getV VF t = getV VF s)) ∧
    (∃ t, exec (.addIVx x) s = .next t ∧ t.I.toNat = (s.I.toNat + (getV x s).toNat) % 65536 ∧ ∀ r, getV r t = getV r s) ∧
    (∃ t, exec (.jpV0 nnn) s = .next t ∧ t.pc.toNat = (getV 0x0#4 s).toNat + nnn.toNat ∧ t.pc.toNat ≤ 0x10FE)

/-- The subtraction law: the flag of 8xy5 and 8xy7 is strict greater-than, 0 on equal operands, not the complement of a
borrow. 43_family_8_alu R152. -/
def Obligations.SubtractionLaw : Prop :=
  ∀ (x y : Nibble) (s : State), x ≠ VF → y ≠ VF →
    ∃ t u, exec (.subReg x y) s = .next t ∧ exec (.subnReg x y) s = .next u ∧
      (∀ a b d f : Nat,
        (a = (getV x s).toNat ∧ b = (getV y s).toNat ∧ d = (getV x t).toNat ∧ f = (getV VF t).toNat) ∨
          (a = (getV y s).toNat ∧ b = (getV x s).toNat ∧ d = (getV x u).toNat ∧ f = (getV VF u).toNat) →
        (a > b → f = 1 ∧ d = a - b ∧ 1 ≤ d ∧ d ≤ 255) ∧ (a = b → f = 0 ∧ d = 0) ∧
        (a < b → f = 0 ∧ d + b = a + 256 ∧ 1 ≤ d ∧ d ≤ 255))

/-- Cxkk writes the free random byte AND kk to V[x]; the old V[x] has no influence and no bit outside kk is set.
44_family_9_to_C R163. The random byte is a free value (decision D18; assumption log 4). -/
def Obligations.RandomByteMasked : Prop :=
  ∀ (x : Nibble) (kk : Byte) (s : State), ∃ t, exec (.rnd x kk) s = .next t ∧ t.fsm = .running ∧ t.pc = s.pc + 2#16 ∧
    getV x t = Config.rnd s.draws &&& kk ∧ t.draws = s.draws + 1 ∧ (∀ j, kk.getLsbD j = false → (getV x t).getLsbD j = false) ∧
    KeepsMem s t ∧ Frame [x] [.draws] s t

/-- Dxyn XORs exactly the pixels the sprite covers, wrapping on both axes, and VF says whether a lit pixel was cleared.
45_family_D_draw R170 to R174. Layout and wrap are decisions D22, D23 (assumption log 15). Sprites that lie in the
framebuffer: statement DrawRowByRow. -/
def Obligations.DrawPixels : Prop :=
  ∀ (x y n : Nibble) (s : State), SpriteApart s n.toNat →
    ∃ t, exec (.drw x y n) s = .next t ∧ t.fsm = .running ∧ t.pc = s.pc + 2#16 ∧
      (let bit := spriteBit s ((getV x s).toNat % 64) ((getV y s).toNat % 32) n.toNat
       (∀ px py, px < 64 → py < 32 → pixelLit t.mem px py = (pixelLit s.mem px py ^^ bit px py)) ∧
       ((∃ px py, px < 64 ∧ py < 32 ∧ pixelLit s.mem px py = true ∧ bit px py = true) → getV VF t = 0x01#8) ∧
       ((∀ px py, px < 64 → py < 32 → pixelLit s.mem px py = true → bit px py = false) → getV VF t = 0x00#8)) ∧
      KeepsMemOutside 0x700 256 s t ∧ Frame [VF] [] s t

/-- Dxyn row by row, sprites inside the framebuffer included: row n reads its byte after rows 0 to n-1 were drawn.
45_family_D_draw R172, R173, R175. Order and layout are decisions D22 to D24 (assumption log 15). -/
def Obligations.DrawRowByRow : Prop :=
  ∀ (x y : Nibble) (s : State),
    (∃ t, exec (.drw x y 0x0#4) s = .next t ∧ t.fsm = .running ∧ t.pc = s.pc + 2#16 ∧ getV VF t = 0x00#8 ∧
      KeepsMem s t ∧ Frame [VF] [] s t) ∧
    (∀ n : Nibble, n.toNat < 15 → s.I.toNat + n.toNat ≤ 0xFFF →
      ∃ t u, exec (.drw x y n) s = .next t ∧ exec (.drw x y (n + 1#4)) s = .next u ∧ u.fsm = .running ∧
        u.pc = s.pc + 2#16 ∧ Frame [VF] [] s u ∧
        (let xpos := (getV x s).toNat % 64
         let row := ((getV y s).toNat + n.toNat) % 32
         let b := t.mem.read (s.I.toNat + n.toNat)
         let left := b >>> (xpos % 8)
         let right := if xpos % 8 = 0 then 0x00#8 else b <<< (8 - xpos % 8)
         let aL := 0x700 + 8 * row + xpos / 8
         let aR := 0x700 + 8 * row + (xpos / 8 + 1) % 8
         u.mem.read aL = t.mem.read aL ^^^ left ∧ u.mem.read aR = t.mem.read aR ^^^ right ∧
         (∀ a, a ≠ aL → a ≠ aR → u.mem.read a = t.mem.read a) ∧
         getV VF u =
           if getV VF t = 0x01#8 ∨ t.mem.read aL &&& left ≠ 0x00#8 ∨ t.mem.read aR &&& right ≠ 0x00#8 then 0x01#8
           else 0x00#8))

/-- Drawing the same sprite twice at the same place restores every byte, and VF says whether the first draw lit a pixel.
45_family_D_draw R174, the source's testable property. Layout is decisions D22, D23 (assumption log 15). -/
def Obligations.DrawTwiceRestores : Prop :=
  ∀ (x y n : Nibble) (s : State), x ≠ VF → y ≠ VF → SpriteApart s n.toNat →
    ∃ t u, exec (.drw x y n) s = .next t ∧ exec (.drw x y n) t = .next u ∧ KeepsMem s u ∧
      (getV VF u = 0x01#8 ↔
        ∃ px py, px < 64 ∧ py < 32 ∧ pixelLit s.mem px py = false ∧ pixelLit t.mem px py = true)

/-- Ex9E skips when the key that the low nibble of V[x] selects is pressed, ExA1 when it is not. 46_family_E_keys R180 to
R182. The low nibble is the spec's decision D19 (assumption log 13). -/
def Obligations.KeySkips : Prop :=
  ∀ (x : Nibble) (s : State),
    (let pressed := getKey (BitVec.ofNat 4 ((getV x s).toNat % 16)) s
     (∃ t, exec (.skp x) s = .next t ∧ t.fsm = .running ∧ t.pc = (if pressed = true then s.pc + 4#16 else s.pc + 2#16) ∧
       KeepsMem s t ∧ Frame [] [] s t) ∧
     (∃ t, exec (.sknp x) s = .next t ∧ t.fsm = .running ∧ t.pc = (if pressed = true then s.pc + 2#16 else s.pc + 4#16) ∧
       KeepsMem s t ∧ Frame [] [] s t))

/-- Fx07 reads DT, Fx15 writes DT, Fx18 writes ST, with any 8-bit value and no flag. 47_family_F R185, R187, R188;
60_exceptions R220. -/
def Obligations.TimerTransfers : Prop :=
  ∀ (x : Nibble) (s : State),
    (∃ t, exec (.ldVxDT x) s = .next t ∧ t.fsm = .running ∧ t.pc = s.pc + 2#16 ∧ getV x t = s.DT ∧
      KeepsMem s t ∧ Frame [x] [] s t) ∧
    (∃ t, exec (.ldDTVx x) s = .next t ∧ t.fsm = .running ∧ t.pc = s.pc + 2#16 ∧ t.DT = getV x s ∧
      KeepsMem s t ∧ Frame [] [.DT] s t) ∧
    (∃ t, exec (.ldSTVx x) s = .next t ∧ t.fsm = .running ∧ t.pc = s.pc + 2#16 ∧ t.ST = getV x s ∧
      KeepsMem s t ∧ Frame [] [.ST] s t)

/-- Fx1E adds V[x] to I modulo 65536 with no flag; Fx29 sets I to 5 times the whole V[x]. 47_family_F R189, R190. The wrap at
16 bits is the spec's decision D27 (assumption log 14). -/
def Obligations.IndexArithmetic : Prop :=
  ∀ (x : Nibble) (s : State),
    (∃ t, exec (.addIVx x) s = .next t ∧ t.fsm = .running ∧ t.pc = s.pc + 2#16 ∧
      t.I.toNat = (s.I.toNat + (getV x s).toNat) % 65536 ∧ KeepsMem s t ∧ Frame [] [.I] s t) ∧
    (∃ t, exec (.ldFVx x) s = .next t ∧ t.fsm = .running ∧ t.pc = s.pc + 2#16 ∧
      t.I.toNat = 5 * (getV x s).toNat ∧ t.I.toNat ≤ 1275 ∧ KeepsMem s t ∧ Frame [] [.I] s t)

/-- Fx0A takes the lowest pressed key; with none pressed it polls, changing nothing but fsm. 47_family_F R186. The lowest key
is the spec's decision D20 (assumption log 13). -/
def Obligations.KeyWait : Prop :=
  ∀ (x : Nibble) (s : State),
    (∀ k : Nibble, getKey k s = true → (∀ j : Nibble, j.toNat < k.toNat → getKey j s = false) →
      ∃ t, exec (.ldVxK x) s = .next t ∧ t.fsm = .running ∧ t.pc = s.pc + 2#16 ∧ (getV x t).toNat = k.toNat ∧
        KeepsMem s t ∧ Frame [x] [] s t) ∧
    ((∀ k : Nibble, getKey k s = false) → exec (.ldVxK x) s = .next { s with fsm := .waitingForKey })

/-- Fx33 stores the three decimal digits of V[x] at I, I + 1, I + 2, one byte each. 47_family_F R191. The faulting addresses:
statement MemoryBoundsFaults. -/
def Obligations.BcdStoresDigits : Prop :=
  ∀ (x : Nibble) (s : State), s.I.toNat + 2 ≤ 0xFFF →
    ∃ t, exec (.ldBVx x) s = .next t ∧ t.fsm = .running ∧ t.pc = s.pc + 2#16 ∧
      (let h := (t.mem.read s.I.toNat).toNat
       let d := (t.mem.read (s.I.toNat + 1)).toNat
       let u := (t.mem.read (s.I.toNat + 2)).toNat
       100 * h + 10 * d + u = (getV x s).toNat ∧ h ≤ 2 ∧ d ≤ 9 ∧ u ≤ 9) ∧
      KeepsMemOutside s.I.toNat 3 s t ∧ Frame [] [] s t

/-- Fx55 stores V0 to V[x] at I, one byte each, and leaves I and every register unchanged. 47_family_F R192. That I is
unchanged is the spec's decision D28 (assumption log 14). -/
def Obligations.StoreRegisterBlock : Prop :=
  ∀ (x : Nibble) (s : State), s.I.toNat + x.toNat ≤ 0xFFF →
    ∃ t, exec (.storeRegs x) s = .next t ∧ t.fsm = .running ∧ t.pc = s.pc + 2#16 ∧
      (∀ r : Nibble, r.toNat ≤ x.toNat → t.mem.read (s.I.toNat + r.toNat) = getV r s) ∧
      KeepsMemOutside s.I.toNat (x.toNat + 1) s t ∧ Frame [] [] s t

/-- Fx65 loads V0 to V[x] from I, one byte each, and leaves I, memory and the registers above x unchanged. 47_family_F R193.
That I is unchanged is the spec's decision D28 (assumption log 14). -/
def Obligations.LoadRegisterBlock : Prop :=
  ∀ (x : Nibble) (s : State), s.I.toNat + x.toNat ≤ 0xFFF →
    ∃ t, exec (.loadRegs x) s = .next t ∧ t.fsm = .running ∧ t.pc = s.pc + 2#16 ∧
      (∀ r : Nibble, getV r t = if r.toNat ≤ x.toNat then s.mem.read (s.I.toNat + r.toNat) else getV r s) ∧
      KeepsMem s t ∧ KeepsSpecials [] s t

/-- Registers stored by Fx55 come back by Fx65 from any state with the same memory and I. 47_family_F R192, R193 together. -/
def Obligations.StoreThenLoadBlock : Prop :=
  ∀ (x : Nibble) (s t : State), s.I.toNat + x.toNat ≤ 0xFFF → exec (.storeRegs x) s = .next t →
    ∀ v : State, v.mem = t.mem → v.I = t.I →
      ∃ u, exec (.loadRegs x) v = .next u ∧ ∀ r : Nibble, r.toNat ≤ x.toNat → getV r u = getV r s

/-- A byte stored by Fx33, Fx55, 00E0, 2nnn or Dxyn is fetched by the very next step: self-modifying code is immediate.
20_memory R70, 70_reset_and_hazards R259 (the spec derives both). The stacked bytes are decisions D5 and D6, the framebuffer
layout and wrap D22 and D23 (assumption log 11 and 15). -/
def Obligations.StoreThenFetch : Prop :=
  ∀ (x y n : Nibble) (nnn : Addr12) (s : State),
    (s.I.toNat + x.toNat ≤ 0xFFF → ∃ t, exec (.storeRegs x) s = .next t ∧
      ∀ u, u = t ∨ u = tick t → ∀ r : Nibble, r.toNat ≤ x.toNat → FetchesByte u (s.I.toNat + r.toNat) (getV r s)) ∧
    (s.I.toNat + 2 ≤ 0xFFF → ∃ t, exec (.ldBVx x) s = .next t ∧
      ∀ u, u = t ∨ u = tick t →
        FetchesByte u s.I.toNat (BitVec.ofNat 8 ((getV x s).toNat / 100)) ∧
        FetchesByte u (s.I.toNat + 1) (BitVec.ofNat 8 ((getV x s).toNat / 10 % 10)) ∧
        FetchesByte u (s.I.toNat + 2) (BitVec.ofNat 8 ((getV x s).toNat % 10))) ∧
    (∃ t, exec .cls s = .next t ∧
      ∀ u, u = t ∨ u = tick t → ∀ a, 0x700 ≤ a → a ≤ 0x7FF → FetchesByte u a 0x00#8) ∧
    (s.sp.toNat ≠ 0x6AF → 1 ≤ s.sp.toNat → s.sp.toNat ≤ 0xFFF → ∃ t, exec (.call nnn) s = .next t ∧
      ∀ u, u = t ∨ u = tick t →
        FetchesByte u (s.sp.toNat - 1) (highByte (s.pc + 2#16)) ∧ FetchesByte u s.sp.toNat (lowByte (s.pc + 2#16))) ∧
    (SpriteApart s n.toNat → ∃ t, exec (.drw x y n) s = .next t ∧
      ∀ u, u = t ∨ u = tick t → ∀ py col, py < 32 → col < 8 → ∀ b : Byte,
        (∀ j, j < 8 → b.getLsbD (7 - j) = (pixelLit s.mem (8 * col + j) py ^^
          spriteBit s ((getV x s).toNat % 64) ((getV y s).toNat % 32) n.toNat (8 * col + j) py)) →
        FetchesByte u (0x700 + 8 * py + col) b)

/-- Dxyn, Fx33, Fx55 and Fx65 take MemoryOutOfBounds when an address is above 0xFFF, before any write. 20_memory R63, R64,
R65; 60_exceptions R204, R211. Decisions D9, D10, D27 (assumption log 12). -/
def Obligations.MemoryBoundsFaults : Prop :=
  ∀ (x y n : Nibble) (s : State),
    (let f : State :=
       { s with fsm := .faulted,
                fault := ⟨.memoryOutOfBounds, 0x0000#16, 0x0000#16, if s.I.toNat < 0x1000 then 0x1000#16 else s.I⟩ }
     (0 < n.toNat → 0xFFF < s.I.toNat + n.toNat - 1 → exec (.drw x y n) s = .next f) ∧
     (0xFFF < s.I.toNat + 2 → exec (.ldBVx x) s = .next f) ∧
     (0xFFF < s.I.toNat + x.toNat → exec (.storeRegs x) s = .next f ∧ exec (.loadRegs x) s = .next f))

/-- Only six instructions can fault, each with its own kind, and a fault changes nothing but fsm and the record.
60_exceptions R207 (which the spec derives), R211, R213. That a fault changes nothing else is the spec's decision D9
(assumption log 12). -/
def Obligations.OnlyTheseRaise : Prop :=
  ∀ (i : Instr) (s t : State), exec i s = .next t → t.fsm = .faulted →
    mayRaise i t.fault.kind = true ∧ t = { s with fsm := .faulted, fault := t.fault }

/-- Every instruction writes only the registers and bytes the spec lists for it, and none writes the key latch. 10_state R22,
R27 to R32; 20_memory R60. -/
def Obligations.InstructionFrames : Prop :=
  ∀ (i : Instr) (s t : State), exec i s = .next t → t.fsm ≠ .faulted →
    (∀ r, writesV i r = false → getV r t = getV r s) ∧ KeepsSpecials (writesSpecials i) s t ∧
    KeepsMemOutside (storesTo i s).1 (storesTo i s).2 s t

/-- No instruction reads the sound timer: its value influences nothing but itself. 10_state R31: "read by no instruction". -/
def Obligations.SoundTimerUnobserved : Prop :=
  ∀ (i : Instr) (s : State) (b : Byte), (∀ x, i ≠ .ldSTVx x) →
    exec i { s with ST := b } = mapNext (fun t => { t with ST := b }) (exec i s)

/-- Only Ex9E, ExA1 and Fx0A observe the key latch. 10_state R32: "read by Ex9E, ExA1, Fx0A". -/
def Obligations.KeysObservedByThree : Prop :=
  ∀ (i : Instr) (s : State) (k : Vector Bool 16), (∀ x, i ≠ .skp x ∧ i ≠ .sknp x ∧ i ≠ .ldVxK x) →
    exec i { s with keys := k } = mapNext (fun t => { t with keys := k }) (exec i s)

/-- When the two bytes at pc decode to an instruction, step is exec of it, then the coupled tick of a completing step.
40_cycle R103 to R108. That polls and faulting steps do not tick are decisions D21, D9. -/
def Obligations.StepRunsDecodedInstruction : Prop :=
  ∀ (s : State) (i : Instr), s.fsm ≠ .faulted → s.pc.toNat + 1 ≤ 0xFFF →
    decodeWord (joinBytes (s.mem.read s.pc.toNat) (s.mem.read (s.pc.toNat + 1))) = some i →
    step s = mapNext (fun t => if t.fsm = .running ∧ t.timerCoupled = true then tick t else t) (exec i s)

/-- A fetch that leaves memory takes MemoryOutOfBounds before decoding, for every pc above 0xFFE. 40_cycle R103,
60_exceptions R211. Decisions D10, D13 (assumption log 12). -/
def Obligations.FetchBeyondMemoryFaults : Prop :=
  ∀ s : State, s.fsm ≠ .faulted → 0xFFF < s.pc.toNat + 1 →
    step s = .next { s with fsm := .faulted,
                            fault := ⟨.memoryOutOfBounds, 0x0000#16, 0x0000#16,
                                      if s.pc.toNat = 0xFFF then 0x1000#16 else s.pc⟩ }

/-- A fetched word that matches no row takes InvalidOpcode with the word and its address, without mutating any register.
60_exceptions R201 (and 40_cycle R104). -/
def Obligations.InvalidOpcodeFaults : Prop :=
  ∀ s : State, s.fsm ≠ .faulted → s.pc.toNat + 1 ≤ 0xFFF →
    decodeWord (joinBytes (s.mem.read s.pc.toNat) (s.mem.read (s.pc.toNat + 1))) = none →
    ∃ f : FaultRecord, step s = .next { s with fsm := .faulted, fault := f } ∧ f.kind = .invalidOpcode ∧
      f.opcode = joinBytes (s.mem.read s.pc.toNat) (s.mem.read (s.pc.toNat + 1)) ∧ f.pc = s.pc

/-- A step in Faulted changes no state at all and the host is told the latched record again. 40_cycle R102. Terminal is the
spec's decision D8 (assumption log 6). -/
def Obligations.FaultedIsInert : Prop :=
  ∀ q : Session, q.core.fsm = .faulted →
    step q.core = .next q.core ∧ ∃ q', transact .step q = .next (.err q.core.fault, q') ∧ q'.core = q.core

/-- Every step is exactly one of completing, poll, faulting or no-op in Faulted, and a poll or a fault changes nothing else.
40_cycle R107. -/
def Obligations.StepClassification : Prop :=
  (∀ s : State, s.fsm = .faulted → step s = .next s) ∧
  (∀ s : State, s.fsm ≠ .faulted → FetchesKeyWait s → (∀ k : Nibble, getKey k s = false) →
    step s = .next { s with fsm := .waitingForKey }) ∧
  (∀ s t : State, s.fsm ≠ .faulted → ¬ (FetchesKeyWait s ∧ ∀ k : Nibble, getKey k s = false) → step s = .next t →
    t.fsm = .running ∨ (t = { s with fsm := .faulted, fault := t.fault } ∧ t.fault.kind ≠ .none))

/-- A step in WaitingForKey is the same function of everything else as a step in Running. 40_cycle R110. The spec's decision
D33 (assumption log 16). -/
def Obligations.WaitingStepsLikeRunning : Prop :=
  ∀ s : State, step { s with fsm := .waitingForKey } = step { s with fsm := .running }

/-- With TIMER_COUPLED a step of Fx15, Fx18 or Fx07 ticks after the instruction; without it the timers keep the written
value. 40_cycle R108, 70_reset_and_hazards R254. TIMER_COUPLED is the OPEN parameter D2 (assumption log 2). -/
def Obligations.TimerWriteThenTick : Prop :=
  ∀ (s : State) (x : Nibble), s.fsm ≠ .faulted → s.pc.toNat + 1 ≤ 0xFFF →
    (let k := if s.timerCoupled = true then 1 else 0
     (decodeWord (fetchWord s) = some (.ldDTVx x) →
       ∃ t, step s = .next t ∧ t.DT.toNat = (getV x s).toNat - k ∧ t.ST.toNat = s.ST.toNat - k) ∧
     (decodeWord (fetchWord s) = some (.ldSTVx x) →
       ∃ t, step s = .next t ∧ t.ST.toNat = (getV x s).toNat - k ∧ t.DT.toNat = s.DT.toNat - k) ∧
     (decodeWord (fetchWord s) = some (.ldVxDT x) →
       ∃ t, step s = .next t ∧ getV x t = s.DT ∧ t.DT.toNat = s.DT.toNat - k ∧ t.ST.toNat = s.ST.toNat - k))

/-- The invariant holds of the reset state and of the first session. 10_state R29, R34, R35; 70_reset_and_hazards R242. That
no record is latched is R243 by decision D14 (assumption log 1); the canonical form of memory is the model's (assumption log
5). -/
def Obligations.InvariantHoldsAtReset : Prop :=
  (∀ (font : Font) (tc : Bool) (d : Nat),
    (State.resetWith font tc d).Inv ∧ (State.resetWith font tc d).fsm = .running ∧
    (State.resetWith font tc d).fault.kind = .none) ∧
  (State.reset.Inv ∧ State.reset.fsm = .running ∧ State.reset.fault.kind = .none) ∧
  Session.reset.Inv ∧ Session.reset.core = State.reset

/-- Every step keeps the invariant: canonical memory, sp one of 17 values, a fault record that explains Faulted, key wait
parked. 10_state R29, R33 to R35; 60_exceptions R211 to R214. The 17 values of sp are decisions D4 and D7, the record
decisions D9 to D11, Faulted D8 (assumption log 6, 11, 12 and 22); the canonical form is the model's (assumption log 5). -/
def Obligations.StepKeepsInvariant : Prop :=
  ∀ s t : State, s.Inv → step s = .next t → t.Inv

/-- From a legal sp every instruction answers a next state, and no step of a run stops. 93_implementation_defined: "every
state has a next state"; 20_memory R72. The legal values of sp are decisions D4 and D7 (assumption log 11); the stop they
exclude is the model's (assumption log 7). -/
def Obligations.StepAlwaysAnswers : Prop :=
  (∀ (i : Instr) (s : State), LegalSp s.sp → ∃ t, exec i s = .next t) ∧ (∀ s : State, s.Inv → ∃ t, step s = .next t)

/-- Every transaction of the host keeps the invariant, so every run does. 60_exceptions R231; 70_reset_and_hazards R240 to
R249. While load may be made the core is as reset left it. The session is the model's (assumption log 8); the decisions as in
StepKeepsInvariant. -/
def Obligations.TransactionsKeepInvariant : Prop :=
  (∀ (x : Transaction) (q q' : Session) (r : Reply), q.Inv → transact x q = .next (r, q') → q'.Inv) ∧
  (∀ (xs : List Transaction) (q' : Session), transactAll xs Session.reset = .next q' → q'.Inv)

/-- Faulted is terminal: no transaction but reset changes anything of the core but the timers and the key latch.
60_exceptions R214, R230. Decisions D8 and D30 (assumption log 6 and 16). -/
def Obligations.FaultedUntilReset : Prop :=
  ∀ (xs : List Transaction) (q q' : Session), q.core.fsm = .faulted → q.loadOpen = false → Transaction.reset ∉ xs →
    transactAll xs q = .next q' →
    q'.core = { q.core with DT := q'.core.DT, ST := q'.core.ST, keys := q'.core.keys } ∧ q'.loadOpen = false

/-- tick_timers answers in every FSM state: one tick lowers both timers by one, floor 0, and changes nothing else.
60_exceptions R217, R218. That it answers in every FSM state is the spec's decision D30 (assumption log 16). -/
def Obligations.TickFloorsAtZero : Prop :=
  ∀ q : Session, ∃ q', transact .tickTimers q = .next (.unit, q') ∧
    q'.core.DT.toNat = (if q.core.DT.toNat > 0 then q.core.DT.toNat - 1 else 0) ∧
    q'.core.ST.toNat = (if q.core.ST.toNat > 0 then q.core.ST.toNat - 1 else 0) ∧
    q'.core = { q.core with DT := q'.core.DT, ST := q'.core.ST }

/-- set_key writes one entry of the latch and nothing else, in every FSM state; an index above 15 is refused. 60_exceptions
R221, R222. Decisions D30, D31 (assumption log 9 and 16). -/
def Obligations.SetKeyLatches : Prop :=
  ∀ (k : Nat) (p : Bool) (q : Session),
    (k ≤ 15 → ∃ q', transact (.setKey k p) q = .next (.unit, q') ∧
      (∀ j, j ≤ 15 → ∃ q'', transact (.getKey j) q' =
        .next (.bool (if j = k then p else getKey (BitVec.ofNat 4 j) q.core), q'')) ∧
      q'.core = { q.core with keys := q'.core.keys }) ∧
    (15 < k → transact (.setKey k p) q = .refused .argumentOutOfRange ∧
      transact (.getKey k) q = .refused .argumentOutOfRange)

/-- get_key returns its entry and sound_active is true exactly when ST is not 0; neither changes anything of the core.
60_exceptions R223, R225. -/
def Obligations.QueriesAnswer : Prop :=
  ∀ (k : Nat) (h : k < 16) (q : Session),
    (∃ q', transact (.getKey k) q = .next (.bool q.core.keys[k], q') ∧ q'.core = q.core) ∧
    (∃ b q', transact .soundActive q = .next (.bool b, q') ∧ q'.core = q.core ∧ (b = true ↔ q.core.ST.toNat ≠ 0))

/-- pixel answers the framebuffer bit of its coordinates and changes nothing of the core; coordinates out of range are
refused. 45_family_D_draw R176. Layout D22, refusal D31 (assumption log 9 and 15). -/
def Obligations.PixelQuery : Prop :=
  ∀ (px py : Nat) (q : Session),
    (px < 64 → py < 32 →
      ∃ b q', transact (.pixel px py) q = .next (.bool b, q') ∧ q'.core = q.core ∧
        (b = true ↔ (q.core.mem.read (0x700 + 8 * py + px / 8)).toNat / 2 ^ (7 - px % 8) % 2 = 1)) ∧
    (64 ≤ px ∨ 32 ≤ py → transact (.pixel px py) q = .refused .argumentOutOfRange)

/-- load copies an image of at most 3584 bytes verbatim to 0x200 and changes nothing else. 70_reset_and_hazards R247. -/
def Obligations.LoadCopiesImage : Prop :=
  ∀ (image : List Byte) (q : Session), q.loadOpen = true → image.length ≤ 3584 →
    ∃ q', transact (.load image) q = .next (.ok, q') ∧
      (∀ (i : Nat) (h : i < image.length), q'.core.mem.read (0x200 + i) = image[i]) ∧
      KeepsMemOutside 0x200 image.length q.core q'.core ∧ q'.core.mem.font = q.core.mem.font ∧
      q'.core = { q.core with mem := q'.core.mem }

/-- An image above 3584 bytes is RomTooLarge and nothing is copied; a load other than the first transaction after reset has
no move. 70_reset_and_hazards R248, R249; 60_exceptions R229. Decision D17 (assumption log 8). -/
def Obligations.LoadRefusals : Prop :=
  (∀ (image : List Byte) (q : Session), q.loadOpen = true → 3584 < image.length →
    ∃ q', transact (.load image) q = .next (.romTooLarge, q') ∧ q'.core = q.core) ∧
  (∀ (image : List Byte) (x : Transaction) (q q' : Session) (r : Reply), x ≠ .reset → transact x q = .next (r, q') →
    transact (.load image) q' = .refused .loadOutsideContract)

/-- step replies Ok for a completing step and a poll, and Err with the record for a faulting step and in Faulted. 40_cycle
R109. -/
def Obligations.StepReplies : Prop :=
  ∀ (q q' : Session) (r : Reply), transact .step q = .next (r, q') →
    step q.core = .next q'.core ∧ (q'.core.fsm ≠ .faulted → r = .ok) ∧ (q'.core.fsm = .faulted → r = .err q'.core.fault) ∧
    (q.core.fsm = .faulted → r = .err q.core.fault)

/-- Canonical memories of one machine that read alike at every address are equal data. 10_state R38; the canonical form is
the model's (assumption log 5). -/
def Obligations.EqualReadsEqualMemory : Prop :=
  ∀ m m' : Memory, m.wf → m'.wf → m.font = m'.font → (∀ a, m.read a = m'.read a) → m = m'

/-- A run ends where the core has faulted or stands at a jump to its own address, and no later step leaves that end. 40_cycle
R112: "A model must define its own end-of-run predicate". The predicate is the model's choice (assumption log 24); that
Faulted is terminal is the spec's decision D8 (assumption log 6). -/
def Obligations.RunEndIsStable : Prop :=
  ∀ s : State,
    (runEnded s = true ↔ s.fsm = .faulted ∨ (s.pc.toNat + 1 ≤ 0xFFF ∧ (fetchWord s).toNat = 0x1000 + s.pc.toNat)) ∧
    (runEnded s = true →
      ∃ t, step s = .next t ∧ runEnded t = true ∧ t = { s with fsm := t.fsm, DT := t.DT, ST := t.ST } ∧
        (s.fsm = .faulted → t = s) ∧
        (s.fsm ≠ .faulted → t.fsm = .running ∧
          (let k := if s.timerCoupled = true then 1 else 0
           t.DT.toNat = s.DT.toNat - k ∧ t.ST.toNat = s.ST.toNat - k)))
end

