-- ==== Sys2Proof/Laws/Decode.lean ====
section
/-! SUPPORT. The fields of a word written in one of the formats (30_encoding R81, R82), and a word's bytes. -/

namespace Sys2Proof

@[simp] theorem joinBytes_bytes (w : Word) : joinBytes (highByte w) (lowByte w) = w := by
  apply BitVec.eq_of_getLsbD_eq; intro i hi
  simp only [joinBytes, highByte, lowByte, BitVec.getLsbD_append, BitVec.getLsbD_extractLsb']
  interval_cases i <;> simp

@[simp] theorem highByte_joinBytes (hi lo : Byte) : highByte (joinBytes hi lo) = hi := by
  apply BitVec.eq_of_getLsbD_eq; intro i h
  simp only [joinBytes, highByte, BitVec.getLsbD_extractLsb', BitVec.getLsbD_append]
  interval_cases i <;> simp

@[simp] theorem lowByte_joinBytes (hi lo : Byte) : lowByte (joinBytes hi lo) = lo := by
  apply BitVec.eq_of_getLsbD_eq; intro i h
  simp only [joinBytes, lowByte, BitVec.getLsbD_extractLsb', BitVec.getLsbD_append]
  interval_cases i <;> simp

/-! ## Format NNN -/

@[simp] theorem fieldOp_formatNNN (op : Nibble) (nnn : Addr12) : fieldOp (formatNNN op nnn) = op := by
  apply BitVec.eq_of_getLsbD_eq; intro i h
  simp only [formatNNN, fieldOp, BitVec.getLsbD_extractLsb', BitVec.getLsbD_append]
  interval_cases i <;> simp

@[simp] theorem fieldNNN_formatNNN (op : Nibble) (nnn : Addr12) : fieldNNN (formatNNN op nnn) = nnn := by
  apply BitVec.eq_of_getLsbD_eq; intro i h
  simp only [formatNNN, fieldNNN, BitVec.getLsbD_extractLsb', BitVec.getLsbD_append]
  interval_cases i <;> simp

/-! ## Format XKK -/

@[simp] theorem fieldOp_formatXKK (op x : Nibble) (kk : Byte) : fieldOp (formatXKK op x kk) = op := by
  apply BitVec.eq_of_getLsbD_eq; intro i h
  simp only [formatXKK, fieldOp, BitVec.getLsbD_extractLsb']
  rw [BitVec.getLsbD_append, BitVec.getLsbD_append]
  interval_cases i <;> simp

@[simp] theorem fieldX_formatXKK (op x : Nibble) (kk : Byte) : fieldX (formatXKK op x kk) = x := by
  apply BitVec.eq_of_getLsbD_eq; intro i h
  simp only [formatXKK, fieldX, BitVec.getLsbD_extractLsb']
  rw [BitVec.getLsbD_append, BitVec.getLsbD_append]
  interval_cases i <;> simp

@[simp] theorem fieldKK_formatXKK (op x : Nibble) (kk : Byte) : fieldKK (formatXKK op x kk) = kk := by
  apply BitVec.eq_of_getLsbD_eq; intro i h
  simp only [formatXKK, fieldKK, BitVec.getLsbD_extractLsb']
  rw [BitVec.getLsbD_append, BitVec.getLsbD_append]
  interval_cases i <;> simp

/-! ## Format XYN -/

@[simp] theorem fieldOp_formatXYN (op x y n : Nibble) : fieldOp (formatXYN op x y n) = op := by
  apply BitVec.eq_of_getLsbD_eq; intro i h
  simp only [formatXYN, fieldOp, BitVec.getLsbD_extractLsb']
  rw [BitVec.getLsbD_append, BitVec.getLsbD_append, BitVec.getLsbD_append]
  interval_cases i <;> simp

@[simp] theorem fieldX_formatXYN (op x y n : Nibble) : fieldX (formatXYN op x y n) = x := by
  apply BitVec.eq_of_getLsbD_eq; intro i h
  simp only [formatXYN, fieldX, BitVec.getLsbD_extractLsb']
  rw [BitVec.getLsbD_append, BitVec.getLsbD_append, BitVec.getLsbD_append]
  interval_cases i <;> simp

@[simp] theorem fieldY_formatXYN (op x y n : Nibble) : fieldY (formatXYN op x y n) = y := by
  apply BitVec.eq_of_getLsbD_eq; intro i h
  simp only [formatXYN, fieldY, BitVec.getLsbD_extractLsb']
  rw [BitVec.getLsbD_append, BitVec.getLsbD_append, BitVec.getLsbD_append]
  interval_cases i <;> simp

@[simp] theorem fieldN_formatXYN (op x y n : Nibble) : fieldN (formatXYN op x y n) = n := by
  apply BitVec.eq_of_getLsbD_eq; intro i h
  simp only [formatXYN, fieldN, BitVec.getLsbD_extractLsb']
  rw [BitVec.getLsbD_append, BitVec.getLsbD_append, BitVec.getLsbD_append]
  interval_cases i <;> simp

/-! ## Every word is in every format -/

theorem formatNNN_fields (w : Word) : formatNNN (fieldOp w) (fieldNNN w) = w := by
  apply BitVec.eq_of_getLsbD_eq; intro i h
  simp only [formatNNN, fieldOp, fieldNNN, BitVec.getLsbD_append, BitVec.getLsbD_extractLsb']
  interval_cases i <;> simp

theorem formatXKK_fields (w : Word) : formatXKK (fieldOp w) (fieldX w) (fieldKK w) = w := by
  apply BitVec.eq_of_getLsbD_eq; intro i h
  simp only [formatXKK, fieldOp, fieldX, fieldKK]
  rw [BitVec.getLsbD_append, BitVec.getLsbD_append]
  simp only [BitVec.getLsbD_extractLsb']
  interval_cases i <;> simp

theorem formatXYN_fields (w : Word) : formatXYN (fieldOp w) (fieldX w) (fieldY w) (fieldN w) = w := by
  apply BitVec.eq_of_getLsbD_eq; intro i h
  simp only [formatXYN, fieldOp, fieldX, fieldY, fieldN]
  rw [BitVec.getLsbD_append, BitVec.getLsbD_append, BitVec.getLsbD_append]
  simp only [BitVec.getLsbD_extractLsb']
  interval_cases i <;> simp

/-- Decoding two bytes in memory order is decoding their word. -/
theorem decode_two (hi lo : Byte) (rest : List Byte) :
    decode (hi :: lo :: rest) =
      match decodeWord (joinBytes hi lo) with
      | some i => .ok (i, rest)
      | none => .error (.invalidOpcode (joinBytes hi lo)) := rfl

/-- The host's reading of a table row is the decoder's reading of its word. -/
theorem decodeTableWord_eq (nbits w : Nat) : decodeTableWord nbits w = decodeWord (BitVec.ofNat 16 (w % 2 ^ nbits)) := by
  simp only [decodeTableWord, decode_two, joinBytes_bytes]
  split <;> rename_i h <;> split at h <;> simp_all

end Sys2Proof
end

