-- ==== Sys2Proof/Laws/Memory.lean ====
section
/-! SUPPORT. The laws of the memory array: read after write, runs of bytes, and that every operation keeps the canonical form
(10_state R38, 20_memory R62). -/

namespace Sys2Proof.Machine

/-! ## Cells -/

theorem lookupCell_putCell (a k : Nat) (b : Byte) (cs : List Host.Cell) :
    lookupCell k (putCell a b cs) = if k = a then some b else lookupCell k cs := by
  induction cs with
  | nil => simp [putCell, lookupCell, eq_comm]
  | cons c cs ih =>
    simp only [putCell]
    split
    · rename_i h
      by_cases hk : c.1 = k
      · simp [lookupCell, hk, show k ≠ a by omega]
      · simp [lookupCell, hk, ih]
    · split <;> by_cases hk : k = a <;> simp_all [lookupCell, eq_comm]

theorem lookupCell_dropCell (a k : Nat) (cs : List Host.Cell) :
    lookupCell k (dropCell a cs) = if k = a then none else lookupCell k cs := by
  induction cs with
  | nil => simp [dropCell, lookupCell]
  | cons c cs ih =>
    simp only [dropCell]
    by_cases hc : c.1 = a <;> by_cases hk : k = a <;> simp_all [lookupCell, eq_comm]

theorem mem_putCell {a : Nat} {b : Byte} {cs : List Host.Cell} {d : Host.Cell} (h : d ∈ putCell a b cs) :
    d = (a, b) ∨ d ∈ cs := by
  induction cs with
  | nil => simpa [putCell] using h
  | cons c cs ih =>
    simp only [putCell] at h
    split at h
    · rcases List.mem_cons.1 h with h | h
      · simp [h]
      · rcases ih h with h | h <;> simp [h]
    · split at h
      · rcases List.mem_cons.1 h with h | h <;> simp [h]
      · rcases List.mem_cons.1 h with h | h
        · simp [h]
        · exact .inr h

theorem mem_dropCell {a : Nat} {cs : List Host.Cell} {d : Host.Cell} (h : d ∈ dropCell a cs) : d ∈ cs := by
  induction cs with
  | nil => simp [dropCell] at h
  | cons c cs ih =>
    simp only [dropCell] at h
    split at h
    · simp [ih h]
    · rcases List.mem_cons.1 h with h | h
      · simp [h]
      · simp [ih h]

theorem rising_putCell (a : Nat) (b : Byte) {cs : List Host.Cell} (h : cs.Pairwise (fun c d => c.1 < d.1)) :
    (putCell a b cs).Pairwise (fun c d => c.1 < d.1) := by
  induction cs with
  | nil => simp [putCell]
  | cons c cs ih =>
    obtain ⟨hc, hcs⟩ := List.pairwise_cons.1 h
    simp only [putCell]
    split
    · rename_i hlt
      refine List.pairwise_cons.2 ⟨fun d hd => ?_, ih hcs⟩
      rcases mem_putCell hd with rfl | hd
      · exact hlt
      · exact hc d hd
    · split
      · rename_i heq
        exact List.pairwise_cons.2 ⟨fun d hd => heq ▸ hc d hd, hcs⟩
      · rename_i hlt hne
        refine List.pairwise_cons.2 ⟨fun d hd => ?_, h⟩
        rcases List.mem_cons.1 hd with rfl | hd
        · show a < d.1; omega
        · have := hc d hd; show a < d.1; omega

theorem rising_dropCell (a : Nat) {cs : List Host.Cell} (h : cs.Pairwise (fun c d => c.1 < d.1)) :
    (dropCell a cs).Pairwise (fun c d => c.1 < d.1) := by
  induction cs with
  | nil => simp [dropCell]
  | cons c cs ih =>
    obtain ⟨hc, hcs⟩ := List.pairwise_cons.1 h
    simp only [dropCell]
    split
    · exact ih hcs
    · exact List.pairwise_cons.2 ⟨fun d hd => hc d (mem_dropCell hd), ih hcs⟩

/-! ## One byte -/

@[simp] theorem Memory.write_font (m : Memory) (a : Nat) (b : Byte) : (m.write a b).font = m.font := by
  unfold Memory.write; split <;> (try split) <;> rfl

@[simp] theorem Memory.write_resetByte (m : Memory) (a : Nat) (b : Byte) (k : Nat) :
    (m.write a b).resetByte k = m.resetByte k := by
  simp [Memory.resetByte]

/-- A write above memory writes nothing. -/
theorem Memory.write_above {m : Memory} {a : Nat} (h : 4096 ≤ a) (b : Byte) : m.write a b = m := by
  simp [Memory.write, show ¬ a < 4096 by omega]

/-- A read after a write gives the value written at that address and the old byte at every other. -/
theorem Memory.read_write {m : Memory} {a : Nat} (h : a < 4096) (b : Byte) (k : Nat) :
    (m.write a b).read k = if k = a then b else m.read k := by
  unfold Memory.write
  simp only [Config.memSize, h, if_true]
  split
  · rename_i hb
    by_cases hk : k = a <;> simp [Memory.read, lookupCell_dropCell, Memory.resetByte, hk]
    · simpa [Memory.resetByte] using hb.symm
  · by_cases hk : k = a <;> simp [Memory.read, lookupCell_putCell, Memory.resetByte, hk]

theorem Memory.read_write_same {m : Memory} {a : Nat} (h : a < 4096) (b : Byte) : (m.write a b).read a = b := by
  simp [Memory.read_write h]

theorem Memory.read_write_other {m : Memory} {a k : Nat} (hk : k ≠ a) (b : Byte) : (m.write a b).read k = m.read k := by
  by_cases h : a < 4096
  · simp [Memory.read_write h, hk]
  · rw [Memory.write_above (by omega)]

theorem Memory.wf_write {m : Memory} (h : m.wf) (a : Nat) (b : Byte) : (m.write a b).wf := by
  obtain ⟨hr, hc⟩ := h
  by_cases ha : a < 4096
  · unfold Memory.write
    simp only [Config.memSize, ha, if_true]
    split
    · exact ⟨rising_dropCell a hr, fun c hm => hc c (mem_dropCell hm)⟩
    · rename_i hb
      refine ⟨rising_putCell a b hr, fun c hm => ?_⟩
      rcases mem_putCell hm with rfl | hm
      · exact ⟨ha, hb⟩
      · exact hc c hm
  · rw [Memory.write_above (by omega)]; exact ⟨hr, hc⟩

/-! ## Runs of bytes -/

@[simp] theorem Memory.writeBytes_nil (m : Memory) (a : Nat) : m.writeBytes a [] = m := rfl

theorem Memory.writeBytes_cons (m : Memory) (a : Nat) (b : Byte) (bs : List Byte) :
    m.writeBytes a (b :: bs) = (m.write a b).writeBytes (a + 1) bs := rfl

@[simp] theorem Memory.writeBytes_font (m : Memory) (a : Nat) (bs : List Byte) : (m.writeBytes a bs).font = m.font := by
  induction bs generalizing m a with
  | nil => rfl
  | cons b bs ih => rw [Memory.writeBytes_cons, ih, Memory.write_font]

theorem Memory.wf_writeBytes {m : Memory} (h : m.wf) (a : Nat) (bs : List Byte) : (m.writeBytes a bs).wf := by
  induction bs generalizing m a with
  | nil => exact h
  | cons b bs ih => rw [Memory.writeBytes_cons]; exact ih (Memory.wf_write h a b) (a + 1)

/-- A run leaves every byte outside it alone. -/
theorem Memory.read_writeBytes_outside (m : Memory) (a k : Nat) (bs : List Byte) (hk : k < a ∨ a + bs.length ≤ k) :
    (m.writeBytes a bs).read k = m.read k := by
  induction bs generalizing m a with
  | nil => rfl
  | cons b bs ih =>
    rw [Memory.writeBytes_cons, ih _ _ (by simp at hk; omega), Memory.read_write_other (by simp at hk; omega)]

/-- Inside a run that memory holds, each byte reads as written. -/
theorem Memory.read_writeBytes_inside (m : Memory) (a j : Nat) (bs : List Byte) (hj : j < bs.length)
    (hm : a + bs.length ≤ 4096) : (m.writeBytes a bs).read (a + j) = bs[j] := by
  induction bs generalizing m a j with
  | nil => simp at hj
  | cons b bs ih =>
    rw [Memory.writeBytes_cons]
    simp only [List.length_cons] at hj hm
    cases j with
    | zero =>
      rw [Memory.read_writeBytes_outside _ _ _ _ (by omega), Nat.add_zero, Memory.read_write_same (by omega)]
      rfl
    | succ j =>
      have := ih (m.write a b) (a + 1) j (by omega) (by omega)
      rw [show a + (j + 1) = a + 1 + j by omega, this]
      rfl

/-- A run of one byte repeated reads as that byte inside and as before outside. -/
theorem Memory.read_writeBytes_replicate (m : Memory) (a n : Nat) (b : Byte) (k : Nat) (hm : a + n ≤ 4096) :
    (m.writeBytes a (List.replicate n b)).read k = if a ≤ k ∧ k < a + n then b else m.read k := by
  split
  · rename_i h
    obtain ⟨j, rfl⟩ := Nat.exists_eq_add_of_le h.1
    rw [Memory.read_writeBytes_inside _ _ _ _ (by rw [List.length_replicate]; omega) (by rw [List.length_replicate]; omega)]
    exact List.getElem_replicate ..
  · exact Memory.read_writeBytes_outside _ _ _ _ (by rw [List.length_replicate]; omega)

/-! ## The canonical form -/

theorem lookupCell_eq_none {a : Nat} {cs : List Host.Cell} (h : ∀ c ∈ cs, c.1 ≠ a) : lookupCell a cs = none := by
  induction cs with
  | nil => rfl
  | cons c cs ih =>
    simp only [lookupCell, h c (by simp), if_false]
    exact ih fun d hd => h d (by simp [hd])

theorem reset_memory_wf (font : Font) : (Memory.mk font []).wf := by
  simp [Memory.wf]

theorem reset_memory_read (font : Font) (a : Nat) : (Memory.mk font []).read a = if h : a < 80 then font[a] else 0x00#8 := rfl

end Sys2Proof.Machine
end

