-- ==== Sys2Proof/Laws/State.lean ====
section
/-! SUPPORT. The small lemmas of State: what each named update leaves alone, field by field, and what it writes. -/

namespace Sys2Proof.Machine

variable (s : State)

/-! ## Fields that an update does not write -/

@[simp] theorem setV_pc (x : Nibble) (b : Byte) : (setV x b s).pc = s.pc := rfl
@[simp] theorem setV_I (x : Nibble) (b : Byte) : (setV x b s).I = s.I := rfl
@[simp] theorem setV_sp (x : Nibble) (b : Byte) : (setV x b s).sp = s.sp := rfl
@[simp] theorem setV_DT (x : Nibble) (b : Byte) : (setV x b s).DT = s.DT := rfl
@[simp] theorem setV_ST (x : Nibble) (b : Byte) : (setV x b s).ST = s.ST := rfl
@[simp] theorem setV_keys (x : Nibble) (b : Byte) : (setV x b s).keys = s.keys := rfl
@[simp] theorem setV_fsm (x : Nibble) (b : Byte) : (setV x b s).fsm = s.fsm := rfl
@[simp] theorem setV_fault (x : Nibble) (b : Byte) : (setV x b s).fault = s.fault := rfl
@[simp] theorem setV_mem (x : Nibble) (b : Byte) : (setV x b s).mem = s.mem := rfl
@[simp] theorem setV_timerCoupled (x : Nibble) (b : Byte) : (setV x b s).timerCoupled = s.timerCoupled := rfl
@[simp] theorem setV_draws (x : Nibble) (b : Byte) : (setV x b s).draws = s.draws := rfl

@[simp] theorem setKey_V (k : Nibble) (p : Bool) : (setKey k p s).V = s.V := rfl
@[simp] theorem setKey_pc (k : Nibble) (p : Bool) : (setKey k p s).pc = s.pc := rfl
@[simp] theorem setKey_I (k : Nibble) (p : Bool) : (setKey k p s).I = s.I := rfl
@[simp] theorem setKey_sp (k : Nibble) (p : Bool) : (setKey k p s).sp = s.sp := rfl
@[simp] theorem setKey_DT (k : Nibble) (p : Bool) : (setKey k p s).DT = s.DT := rfl
@[simp] theorem setKey_ST (k : Nibble) (p : Bool) : (setKey k p s).ST = s.ST := rfl
@[simp] theorem setKey_fsm (k : Nibble) (p : Bool) : (setKey k p s).fsm = s.fsm := rfl
@[simp] theorem setKey_fault (k : Nibble) (p : Bool) : (setKey k p s).fault = s.fault := rfl
@[simp] theorem setKey_mem (k : Nibble) (p : Bool) : (setKey k p s).mem = s.mem := rfl
@[simp] theorem setKey_timerCoupled (k : Nibble) (p : Bool) : (setKey k p s).timerCoupled = s.timerCoupled := rfl
@[simp] theorem setKey_draws (k : Nibble) (p : Bool) : (setKey k p s).draws = s.draws := rfl

@[simp] theorem advance_V : (advance s).V = s.V := rfl
@[simp] theorem advance_I : (advance s).I = s.I := rfl
@[simp] theorem advance_sp : (advance s).sp = s.sp := rfl
@[simp] theorem advance_DT : (advance s).DT = s.DT := rfl
@[simp] theorem advance_ST : (advance s).ST = s.ST := rfl
@[simp] theorem advance_keys : (advance s).keys = s.keys := rfl
@[simp] theorem advance_fsm : (advance s).fsm = s.fsm := rfl
@[simp] theorem advance_fault : (advance s).fault = s.fault := rfl
@[simp] theorem advance_mem : (advance s).mem = s.mem := rfl
@[simp] theorem advance_timerCoupled : (advance s).timerCoupled = s.timerCoupled := rfl
@[simp] theorem advance_draws : (advance s).draws = s.draws := rfl

@[simp] theorem jump_V (w : Word) : (jump w s).V = s.V := rfl
@[simp] theorem jump_I (w : Word) : (jump w s).I = s.I := rfl
@[simp] theorem jump_sp (w : Word) : (jump w s).sp = s.sp := rfl
@[simp] theorem jump_DT (w : Word) : (jump w s).DT = s.DT := rfl
@[simp] theorem jump_ST (w : Word) : (jump w s).ST = s.ST := rfl
@[simp] theorem jump_keys (w : Word) : (jump w s).keys = s.keys := rfl
@[simp] theorem jump_fsm (w : Word) : (jump w s).fsm = s.fsm := rfl
@[simp] theorem jump_fault (w : Word) : (jump w s).fault = s.fault := rfl
@[simp] theorem jump_mem (w : Word) : (jump w s).mem = s.mem := rfl
@[simp] theorem jump_timerCoupled (w : Word) : (jump w s).timerCoupled = s.timerCoupled := rfl
@[simp] theorem jump_draws (w : Word) : (jump w s).draws = s.draws := rfl

@[simp] theorem push_V (w : Word) : (push w s).V = s.V := rfl
@[simp] theorem push_pc (w : Word) : (push w s).pc = s.pc := rfl
@[simp] theorem push_I (w : Word) : (push w s).I = s.I := rfl
@[simp] theorem push_DT (w : Word) : (push w s).DT = s.DT := rfl
@[simp] theorem push_ST (w : Word) : (push w s).ST = s.ST := rfl
@[simp] theorem push_keys (w : Word) : (push w s).keys = s.keys := rfl
@[simp] theorem push_fsm (w : Word) : (push w s).fsm = s.fsm := rfl
@[simp] theorem push_fault (w : Word) : (push w s).fault = s.fault := rfl
@[simp] theorem push_timerCoupled (w : Word) : (push w s).timerCoupled = s.timerCoupled := rfl
@[simp] theorem push_draws (w : Word) : (push w s).draws = s.draws := rfl

@[simp] theorem pop_V : (pop s).V = s.V := rfl
@[simp] theorem pop_pc : (pop s).pc = s.pc := rfl
@[simp] theorem pop_I : (pop s).I = s.I := rfl
@[simp] theorem pop_DT : (pop s).DT = s.DT := rfl
@[simp] theorem pop_ST : (pop s).ST = s.ST := rfl
@[simp] theorem pop_keys : (pop s).keys = s.keys := rfl
@[simp] theorem pop_fsm : (pop s).fsm = s.fsm := rfl
@[simp] theorem pop_fault : (pop s).fault = s.fault := rfl
@[simp] theorem pop_mem : (pop s).mem = s.mem := rfl
@[simp] theorem pop_timerCoupled : (pop s).timerCoupled = s.timerCoupled := rfl
@[simp] theorem pop_draws : (pop s).draws = s.draws := rfl

@[simp] theorem tick_V : (tick s).V = s.V := rfl
@[simp] theorem tick_pc : (tick s).pc = s.pc := rfl
@[simp] theorem tick_I : (tick s).I = s.I := rfl
@[simp] theorem tick_sp : (tick s).sp = s.sp := rfl
@[simp] theorem tick_keys : (tick s).keys = s.keys := rfl
@[simp] theorem tick_fsm : (tick s).fsm = s.fsm := rfl
@[simp] theorem tick_fault : (tick s).fault = s.fault := rfl
@[simp] theorem tick_mem : (tick s).mem = s.mem := rfl
@[simp] theorem tick_timerCoupled : (tick s).timerCoupled = s.timerCoupled := rfl
@[simp] theorem tick_draws : (tick s).draws = s.draws := rfl

@[simp] theorem skipIf_V (c : Bool) : (skipIf c s).V = s.V := by cases c <;> rfl
@[simp] theorem skipIf_I (c : Bool) : (skipIf c s).I = s.I := by cases c <;> rfl
@[simp] theorem skipIf_sp (c : Bool) : (skipIf c s).sp = s.sp := by cases c <;> rfl
@[simp] theorem skipIf_DT (c : Bool) : (skipIf c s).DT = s.DT := by cases c <;> rfl
@[simp] theorem skipIf_ST (c : Bool) : (skipIf c s).ST = s.ST := by cases c <;> rfl
@[simp] theorem skipIf_keys (c : Bool) : (skipIf c s).keys = s.keys := by cases c <;> rfl
@[simp] theorem skipIf_fsm (c : Bool) : (skipIf c s).fsm = s.fsm := by cases c <;> rfl
@[simp] theorem skipIf_fault (c : Bool) : (skipIf c s).fault = s.fault := by cases c <;> rfl
@[simp] theorem skipIf_mem (c : Bool) : (skipIf c s).mem = s.mem := by cases c <;> rfl
@[simp] theorem skipIf_timerCoupled (c : Bool) : (skipIf c s).timerCoupled = s.timerCoupled := by cases c <;> rfl
@[simp] theorem skipIf_draws (c : Bool) : (skipIf c s).draws = s.draws := by cases c <;> rfl

/-! ## Fields that an update writes -/

@[simp] theorem advance_pc : (advance s).pc = s.pc + 2#16 := rfl
@[simp] theorem jump_pc (w : Word) : (jump w s).pc = w := rfl
@[simp] theorem push_sp (w : Word) : (push w s).sp = s.sp - 2#16 := rfl
@[simp] theorem push_mem (w : Word) :
    (push w s).mem = s.mem.writeBytes (s.sp.toNat - 1) [highByte w, lowByte w] := rfl
@[simp] theorem pop_sp : (pop s).sp = s.sp + 2#16 := rfl
@[simp] theorem tick_DT : (tick s).DT = countDown s.DT := rfl
@[simp] theorem tick_ST : (tick s).ST = countDown s.ST := rfl
@[simp] theorem skipIf_pc (c : Bool) : (skipIf c s).pc = if c then s.pc + 4#16 else s.pc + 2#16 := by cases c <;> rfl

/-! ## Register and key reads -/

/-- A register read after a register write (10_state R20: no aliases). -/
theorem getV_setV (x y : Nibble) (b : Byte) : getV y (setV x b s) = if y = x then b else getV y s := by
  simp only [getV, setV, Vector.getElem_set, BitVec.toNat_inj, eq_comm]

@[simp] theorem getV_setV_same (x : Nibble) (b : Byte) : getV x (setV x b s) = b := by simp [getV_setV]

theorem getV_setV_other {x y : Nibble} (h : y ≠ x) (b : Byte) : getV y (setV x b s) = getV y s := by simp [getV_setV, h]

/-- A register read looks at the register file only. -/
theorem getV_congr {s t : State} (h : t.V = s.V) (x : Nibble) : getV x t = getV x s := by simp only [getV, h]

@[simp] theorem getV_advance (x : Nibble) : getV x (advance s) = getV x s := rfl
@[simp] theorem getV_jump (x : Nibble) (w : Word) : getV x (jump w s) = getV x s := rfl
@[simp] theorem getV_push (x : Nibble) (w : Word) : getV x (push w s) = getV x s := rfl
@[simp] theorem getV_pop (x : Nibble) : getV x (pop s) = getV x s := rfl
@[simp] theorem getV_tick (x : Nibble) : getV x (tick s) = getV x s := rfl
@[simp] theorem getV_skipIf (x : Nibble) (c : Bool) : getV x (skipIf c s) = getV x s := by cases c <;> rfl
@[simp] theorem getV_setKey (x k : Nibble) (p : Bool) : getV x (setKey k p s) = getV x s := rfl

/-- A key read after a key write (60_exceptions R222). -/
theorem getKey_setKey (j k : Nibble) (p : Bool) : getKey j (setKey k p s) = if j = k then p else getKey j s := by
  simp only [getKey, setKey, Vector.getElem_set, BitVec.toNat_inj, eq_comm]

/-- Two register files that read alike are equal. -/
theorem regs_ext {s t : State} (h : ∀ x, getV x t = getV x s) : t.V = s.V := by
  refine Vector.ext fun i hi => ?_
  have := h (BitVec.ofNat 4 i)
  simpa [getV, Nat.mod_eq_of_lt hi] using this

end Sys2Proof.Machine
end

