-- ==== Sys2Proof/Laws/Ops.lean ====
section
/-! SUPPORT. One lemma for each shared operation that says once what it does; provers cite these instead of unfolding. -/

namespace Sys2Proof.Machine

/-! ## How an instruction ends -/

theorem done_eq_next {s t : State} : done s = .next t ↔ t = { s with fsm := .running } := by
  simp [done, eq_comm]

theorem poll_eq_next {s t : State} : poll s = .next t ↔ t = { s with fsm := .waitingForKey } := by
  simp [poll, eq_comm]

theorem raise_eq_next {r : FaultRecord} {s t : State} :
    raise r s = .next t ↔ t = { s with fsm := .faulted, fault := r } := by
  simp [raise, eq_comm]

theorem outOfBounds_iff {a0 : Word} {m : Nat} : outOfBounds a0 m = true ↔ 0 < m ∧ 4096 < a0.toNat + m :=
  decide_eq_true_iff

theorem outOfBounds_eq_false_iff {a0 : Word} {m : Nat} : outOfBounds a0 m = false ↔ m = 0 ∨ a0.toNat + m ≤ 4096 := by
  rw [← Bool.not_eq_true, outOfBounds_iff]; omega

/-- The bounds check either lets the instruction run or takes `MemoryOutOfBounds`. -/
theorem ifInBounds_cases (a0 : Word) (m : Nat) (s : State) (k : State → Result) :
    (outOfBounds a0 m = false ∧ ifInBounds a0 m s k = k s) ∨
      (outOfBounds a0 m = true ∧ ifInBounds a0 m s k = raise (memoryOutOfBoundsRecord a0) s) := by
  unfold ifInBounds
  cases outOfBounds a0 m <;> simp

/-- An access inside memory runs. -/
theorem ifInBounds_run {a0 : Word} {m : Nat} (h : m = 0 ∨ a0.toNat + m ≤ 4096) (s : State) (k : State → Result) :
    ifInBounds a0 m s k = k s := by
  rw [ifInBounds, outOfBounds_eq_false_iff.2 h]; rfl

/-- An access that leaves memory takes `MemoryOutOfBounds` before anything else. -/
theorem ifInBounds_raise {a0 : Word} {m : Nat} (h0 : 0 < m) (h : 4096 < a0.toNat + m) (s : State) (k : State → Result) :
    ifInBounds a0 m s k = raise (memoryOutOfBoundsRecord a0) s := by
  rw [ifInBounds, outOfBounds_iff.2 ⟨h0, h⟩]; rfl

/-- The reported address of an access that leaves memory, `max(a0, 0x1000)` (20_memory R64). -/
theorem memoryOutOfBoundsRecord_eq (a0 : Word) :
    memoryOutOfBoundsRecord a0 =
      ⟨.memoryOutOfBounds, 0x0000#16, 0x0000#16, if a0.toNat < 0x1000 then 0x1000#16 else a0⟩ := by
  unfold memoryOutOfBoundsRecord
  simp only [Config.memSize]
  split
  · rw [show max a0.toNat 4096 = 4096 by omega]
  · rw [show max a0.toNat 4096 = a0.toNat by omega, BitVec.ofNat_toNat, BitVec.setWidth_eq]

/-! ## Flags and 8-bit arithmetic (43_family_8 R151 to R153) -/

@[simp] theorem toNat_flagByte (b : Bool) : (flagByte b).toNat = if b then 1 else 0 := by cases b <;> rfl

theorem toNat_sum8 (a b : Byte) : (sum8 a b).toNat = (a.toNat + b.toNat) % 256 := by simp [sum8]

theorem toNat_carryFlag (a b : Byte) : (carryFlag a b).toNat = if 255 < a.toNat + b.toNat then 1 else 0 := by
  simp [carryFlag]

theorem toNat_diff8 (a b : Byte) : (diff8 a b).toNat = (a.toNat + 256 - b.toNat) % 256 := by simp [diff8]

theorem toNat_greaterFlag (a b : Byte) : (greaterFlag a b).toNat = if b.toNat < a.toNat then 1 else 0 := by
  simp [greaterFlag]

theorem toNat_lowBitFlag (a : Byte) : (lowBitFlag a).toNat = a.toNat % 2 := by
  simp [lowBitFlag, Nat.and_one_is_mod]

theorem toNat_highBitFlag (a : Byte) : (highBitFlag a).toNat = if 128 ≤ a.toNat then 1 else 0 := by
  have := a.isLt
  simp only [highBitFlag, BitVec.toNat_and, BitVec.toNat_ushiftRight, Nat.shiftRight_eq_div_pow, BitVec.reduceToNat,
    Nat.and_one_is_mod]
  split <;> omega

theorem toNat_shiftRight1 (a : Byte) : (shiftRight1 a).toNat = a.toNat / 2 := by
  simp [shiftRight1, Nat.shiftRight_eq_div_pow]

theorem toNat_shiftLeft1 (a : Byte) : (shiftLeft1 a).toNat = 2 * a.toNat % 256 := by
  simp [shiftLeft1, Nat.shiftLeft_eq, Nat.mul_comm]

/-! ## Register forms -/

theorem writeReg_eq (x : Nibble) (b : Byte) (s : State) :
    writeReg x b s = .next { advance (setV x b s) with fsm := .running } := rfl

/-- What a flagged ALU instruction does (R149): it completes; VF holds the flag unless x is VF; `V[x]` holds the result of the
operands read after the VF write; every other register is unchanged. -/
theorem flagThenResult_spec (flag result : Byte → Byte → Byte) (x y : Nibble) (s : State) :
    ∃ t, flagThenResult flag result x y s = .next t ∧ t.fsm = .running ∧ t.pc = s.pc + 2#16 ∧
      (∀ r, getV r t =
        if r = x then
          result (if x = VF then flag (getV x s) (getV y s) else getV x s)
            (if y = VF then flag (getV x s) (getV y s) else getV y s)
        else if r = VF then flag (getV x s) (getV y s) else getV r s) ∧
      t = { s with V := t.V, pc := t.pc, fsm := t.fsm } := by
  refine ⟨_, rfl, rfl, rfl, fun r => ?_, rfl⟩
  show getV r (setV x _ (setV VF _ s)) = _
  simp only [getV_setV]

/-! ## Stack -/

theorem pushInMemory_iff {sp : Word} : pushInMemory sp = true ↔ 1 ≤ sp.toNat ∧ sp.toNat < 4096 := decide_eq_true_iff

theorem popInMemory_iff {sp : Word} : popInMemory sp = true ↔ sp.toNat + 2 < 4096 := decide_eq_true_iff

theorem push_wf {s : State} (h : s.mem.wf) (v : Word) : (push v s).mem.wf := Memory.wf_writeBytes h _ _

/-- The bytes of memory after a push that exists: the word at `sp - 1`, high byte first, every other byte unchanged (R53). -/
theorem read_push {s : State} (h : pushInMemory s.sp = true) (v : Word) (a : Nat) :
    (push v s).mem.read a =
      if a = s.sp.toNat - 1 then highByte v else if a = s.sp.toNat then lowByte v else s.mem.read a := by
  obtain ⟨h1, h2⟩ := pushInMemory_iff.1 h
  simp only [push_mem, Memory.writeBytes_cons, Memory.writeBytes_nil, show s.sp.toNat - 1 + 1 = s.sp.toNat by omega]
  rw [Memory.read_write h2, Memory.read_write (by omega)]
  by_cases ha : a = s.sp.toNat
  · simp [ha, show s.sp.toNat ≠ s.sp.toNat - 1 by omega]
  · simp [ha]

/-! ## Block moves -/

theorem length_firstRegs {m : Nat} (h : m ≤ 16) (s : State) : (firstRegs m s).length = m := by
  simp [firstRegs, h]

theorem getElem_firstRegs {m j : Nat} (s : State) (hj : j < (firstRegs m s).length) :
    (firstRegs m s)[j] = getV (BitVec.ofNat 4 j) s := by
  have h16 : j < 16 := by simp [firstRegs] at hj; omega
  simp [firstRegs, getV, Nat.mod_eq_of_lt h16]

theorem loadBlock_V_only (a m : Nat) (s : State) : loadBlock a m s = { s with V := (loadBlock a m s).V } := by
  induction m with
  | zero => rfl
  | succ m ih => unfold loadBlock; rw [ih]; rfl

/-- The registers after a block load: the first `m` from memory, the others unchanged (R193). -/
theorem getV_loadBlock (a : Nat) {m : Nat} (h : m ≤ 16) (s : State) (r : Nibble) :
    getV r (loadBlock a m s) = if r.toNat < m then s.mem.read (a + r.toNat) else getV r s := by
  induction m with
  | zero => simp [loadBlock]
  | succ m ih =>
    have hm : (BitVec.ofNat 4 m).toNat = m := by simp; omega
    have hmem : (loadBlock a m s).mem = s.mem := by rw [loadBlock_V_only]
    simp only [loadBlock, getV_setV, hmem, ih (by omega)]
    by_cases hr : r = BitVec.ofNat 4 m
    · subst hr; simp only [hm]; simp
    · have : r.toNat ≠ m := fun e => hr (by rw [← e]; simp)
      simp only [hr, if_false]
      by_cases hlt : r.toNat < m
      · simp [hlt, show r.toNat < m + 1 by omega]
      · simp [hlt, show ¬ r.toNat < m + 1 by omega]

theorem length_bcdDigits (b : Byte) : (bcdDigits b).length = 3 := rfl

/-! ## The framebuffer clear -/

theorem clearFramebuffer_mem_only (s : State) : clearFramebuffer s = { s with mem := (clearFramebuffer s).mem } := by
  simp only [clearFramebuffer]

@[simp] theorem clearFramebuffer_font (s : State) : (clearFramebuffer s).mem.font = s.mem.font := by
  simp only [clearFramebuffer, Memory.writeBytes_font]

theorem clearFramebuffer_wf {s : State} (h : s.mem.wf) : (clearFramebuffer s).mem.wf := by
  simp only [clearFramebuffer]
  generalize List.replicate Config.fbSize 0x00#8 = bs
  exact Memory.wf_writeBytes h _ _

/-- The 256 framebuffer bytes read 0x00 (R120). -/
theorem read_clearFramebuffer_inside (s : State) {a : Nat} (h : 0x700 ≤ a ∧ a < 0x800) :
    (clearFramebuffer s).mem.read a = 0x00#8 := by
  simp only [clearFramebuffer, Config.fbBase, Config.fbSize]
  rw [Memory.read_writeBytes_replicate _ _ _ _ _ (by omega), if_pos (by omega)]

/-- Every other byte reads as before (R120). -/
theorem read_clearFramebuffer_outside (s : State) {a : Nat} (h : a < 0x700 ∨ 0x800 ≤ a) :
    (clearFramebuffer s).mem.read a = s.mem.read a := by
  simp only [clearFramebuffer, Config.fbBase, Config.fbSize]
  rw [Memory.read_writeBytes_replicate _ _ _ _ _ (by omega), if_neg (by omega)]

/-! ## Keys -/

theorem scanKeys_some {s : State} {m : Nat} (hm : m ≤ 16) {k : Nibble} (h : scanKeys s m = some k) :
    getKey k s = true ∧ 16 - m ≤ k.toNat ∧ ∀ j : Nibble, 16 - m ≤ j.toNat → j.toNat < k.toNat → getKey j s = false := by
  induction m with
  | zero => simp [scanKeys] at h
  | succ m ih =>
    have hn : (BitVec.ofNat 4 (15 - m)).toNat = 15 - m := by simp; omega
    simp only [scanKeys] at h
    split at h
    · rename_i hk
      obtain rfl := Option.some.inj h
      refine ⟨hk, by omega, fun j h1 h2 => ?_⟩
      omega
    · rename_i hk
      obtain ⟨h1, h2, h3⟩ := ih (by omega) h
      refine ⟨h1, by omega, fun j hj hj2 => ?_⟩
      by_cases hj3 : 16 - m ≤ j.toNat
      · exact h3 j hj3 hj2
      · have : j = BitVec.ofNat 4 (15 - m) := BitVec.eq_of_toNat_eq (by omega)
        subst this
        simpa using hk

theorem scanKeys_none {s : State} {m : Nat} (hm : m ≤ 16) (h : scanKeys s m = none) :
    ∀ j : Nibble, 16 - m ≤ j.toNat → getKey j s = false := by
  induction m with
  | zero => intro j hj; have := j.isLt; omega
  | succ m ih =>
    have hn : (BitVec.ofNat 4 (15 - m)).toNat = 15 - m := by simp; omega
    simp only [scanKeys] at h
    split at h
    · simp at h
    · rename_i hk
      intro j hj
      by_cases hj3 : 16 - m ≤ j.toNat
      · exact ih (by omega) h j hj3
      · have : j = BitVec.ofNat 4 (15 - m) := BitVec.eq_of_toNat_eq (by omega)
        subst this
        simpa using hk

/-- The key that Fx0A takes is pressed and no lower one is (47_family_F R186). -/
theorem lowestKey_some {s : State} {k : Nibble} (h : lowestKey s = some k) :
    getKey k s = true ∧ ∀ j : Nibble, j.toNat < k.toNat → getKey j s = false := by
  obtain ⟨h1, _, h3⟩ := scanKeys_some (Nat.le_refl 16) h
  exact ⟨h1, fun j hj => h3 j (by omega) hj⟩

/-- Fx0A polls exactly when no key is pressed. -/
theorem lowestKey_none {s : State} : lowestKey s = none ↔ ∀ j : Nibble, getKey j s = false := by
  constructor
  · intro h j
    exact scanKeys_none (Nat.le_refl 16) h j (by omega)
  · intro h
    cases hk : lowestKey s with
    | none => rfl
    | some k => have := (lowestKey_some hk).1; rw [h k] at this; simp at this

/-! ## Timers -/

theorem toNat_countDown (t : Byte) : (countDown t).toNat = t.toNat - 1 := by
  unfold countDown
  split
  · rename_i h; subst h; rfl
  · rename_i h
    have hne : t.toNat ≠ 0 := fun e => h (BitVec.eq_of_toNat_eq e)
    have hlt := t.isLt
    simp only [BitVec.toNat_sub]
    simp
    omega

/-! ## The draw -/

@[simp] theorem xorPart_font (a : Nat) (p : Byte) (d : Draw) : (xorPart a p d).mem.font = d.mem.font := by simp [xorPart]

theorem xorPart_wf (a : Nat) (p : Byte) {d : Draw} (h : d.mem.wf) : (xorPart a p d).mem.wf := Memory.wf_write h _ _

theorem read_xorPart {a : Nat} (h : a < 4096) (p : Byte) (d : Draw) (k : Nat) :
    (xorPart a p d).mem.read k = if k = a then d.mem.read k ^^^ p else d.mem.read k := by
  simp only [xorPart, Memory.read_write h]
  split <;> simp_all

/-- A framebuffer address is in the framebuffer (20_memory R72). -/
theorem fbAddr_range {row col : Nat} (hr : row < 32) (hc : col < 8) : 0x700 ≤ fbAddr row col ∧ fbAddr row col < 0x800 := by
  simp only [fbAddr, Config.fbBase]; omega

/-- Framebuffer addresses of different places are different. -/
theorem fbAddr_inj {r c r' c' : Nat} (hc : c < 8) (hc' : c' < 8) : fbAddr r c = fbAddr r' c' ↔ r = r' ∧ c = c' := by
  simp only [fbAddr, Config.fbBase]; omega

@[simp] theorem drawRow_font (xpos row : Nat) (b : Byte) (d : Draw) : (drawRow xpos row b d).mem.font = d.mem.font := by
  unfold drawRow; simp only; split <;> simp

theorem drawRow_wf (xpos row : Nat) (b : Byte) {d : Draw} (h : d.mem.wf) : (drawRow xpos row b d).mem.wf := by
  unfold drawRow; simp only; split
  · exact xorPart_wf _ _ h
  · exact xorPart_wf _ _ (xorPart_wf _ _ h)

/-- What drawing one row does to a byte: its left and right parts are XORed into their two bytes of that pixel row (R173). -/
theorem read_drawRow {xpos row : Nat} (hx : xpos < 64) (hr : row < 32) (b : Byte) (d : Draw) (k : Nat) :
    (drawRow xpos row b d).mem.read k =
      if k = fbAddr row (xpos / 8) then d.mem.read k ^^^ (b >>> (xpos % 8))
      else if k = fbAddr row ((xpos / 8 + 1) % 8) ∧ xpos % 8 ≠ 0 then d.mem.read k ^^^ (b <<< (8 - xpos % 8))
      else d.mem.read k := by
  have h1 := fbAddr_range hr (col := xpos / 8) (by omega)
  have h2 := fbAddr_range hr (col := (xpos / 8 + 1) % 8) (by omega)
  have hne : fbAddr row (xpos / 8) ≠ fbAddr row ((xpos / 8 + 1) % 8) := by
    rw [Ne, fbAddr_inj (by omega) (by omega)]; omega
  unfold drawRow
  simp only
  split
  · rename_i hs; simp [read_xorPart (show fbAddr row (xpos / 8) < 4096 by omega), hs]
  · rename_i hs
    rw [read_xorPart (by omega), read_xorPart (by omega)]
    by_cases hk1 : k = fbAddr row (xpos / 8)
    · subst hk1; simp [hne]
    · simp [hk1, hs]

theorem read_drawRow_outside {xpos row : Nat} (hx : xpos < 64) (hr : row < 32) (b : Byte) (d : Draw) {k : Nat}
    (hk : k < 0x700 ∨ 0x800 ≤ k) : (drawRow xpos row b d).mem.read k = d.mem.read k := by
  have h1 := fbAddr_range hr (col := xpos / 8) (by omega)
  have h2 := fbAddr_range hr (col := (xpos / 8 + 1) % 8) (by omega)
  rw [read_drawRow hx hr, if_neg (by omega), if_neg (by omega)]

theorem drawRows_succ (i xpos ypos r : Nat) (d : Draw) :
    drawRows i xpos ypos (r + 1) d =
      drawRow xpos ((ypos + r) % 32) ((drawRows i xpos ypos r d).mem.read (i + r)) (drawRows i xpos ypos r d) := rfl

@[simp] theorem drawRows_font (i xpos ypos n : Nat) (d : Draw) : (drawRows i xpos ypos n d).mem.font = d.mem.font := by
  induction n with
  | zero => rfl
  | succ n ih => rw [drawRows_succ, drawRow_font, ih]

theorem drawRows_wf (i xpos ypos n : Nat) {d : Draw} (h : d.mem.wf) : (drawRows i xpos ypos n d).mem.wf := by
  induction n with
  | zero => exact h
  | succ n ih => rw [drawRows_succ]; exact drawRow_wf _ _ _ ih

/-- A draw writes the framebuffer and nothing else (20_memory R60, R72). -/
theorem read_drawRows_outside {xpos : Nat} (hx : xpos < 64) (i ypos n : Nat) (d : Draw) {k : Nat}
    (hk : k < 0x700 ∨ 0x800 ≤ k) : (drawRows i xpos ypos n d).mem.read k = d.mem.read k := by
  induction n with
  | zero => rfl
  | succ n ih => rw [drawRows_succ, read_drawRow_outside hx (Nat.mod_lt _ (by omega)) _ _ hk, ih]

end Sys2Proof.Machine
end

