-- ==== Sys2Proof/Laws/PerInstr.lean ====
section
/-! SUPPORT. Laws that hold of every instruction as syntax, one lemma per constructor. -/

namespace Sys2Proof

/-- The family selector `op` of each instruction's word: the first hex digit of its pattern (30_encoding R81, R83). -/
def Laws.familyNibble : Instr → Nibble
  | .cls => 0x0#4
  | .ret => 0x0#4
  | .sys _ => 0x0#4
  | .jp _ => 0x1#4
  | .call _ => 0x2#4
  | .seImm _ _ => 0x3#4
  | .sneImm _ _ => 0x4#4
  | .seReg _ _ => 0x5#4
  | .ldImm _ _ => 0x6#4
  | .addImm _ _ => 0x7#4
  | .ldReg _ _ => 0x8#4
  | .orReg _ _ => 0x8#4
  | .andReg _ _ => 0x8#4
  | .xorReg _ _ => 0x8#4
  | .addReg _ _ => 0x8#4
  | .subReg _ _ => 0x8#4
  | .shr _ _ => 0x8#4
  | .subnReg _ _ => 0x8#4
  | .shl _ _ => 0x8#4
  | .sneReg _ _ => 0x9#4
  | .ldI _ => 0xA#4
  | .jpV0 _ => 0xB#4
  | .rnd _ _ => 0xC#4
  | .drw _ _ _ => 0xD#4
  | .skp _ => 0xE#4
  | .sknp _ => 0xE#4
  | .ldVxDT _ => 0xF#4
  | .ldVxK _ => 0xF#4
  | .ldDTVx _ => 0xF#4
  | .ldSTVx _ => 0xF#4
  | .addIVx _ => 0xF#4
  | .ldFVx _ => 0xF#4
  | .ldBVx _ => 0xF#4
  | .storeRegs _ => 0xF#4
  | .loadRegs _ => 0xF#4

/-- The word of an instruction carries its family's selector in bits 15:12. -/
def Laws.OpNibble.Statement (i : Instr) : Prop := fieldOp (encode i) = Laws.familyNibble i

theorem Laws.OpNibble.cls : Laws.OpNibble.Statement (.cls) := rfl
theorem Laws.OpNibble.ret : Laws.OpNibble.Statement (.ret) := rfl
theorem Laws.OpNibble.sys : ∀ a, Laws.OpNibble.Statement (.sys a) := by intros; simp [Laws.OpNibble.Statement, encode, Laws.familyNibble]
theorem Laws.OpNibble.jp : ∀ a, Laws.OpNibble.Statement (.jp a) := by intros; simp [Laws.OpNibble.Statement, encode, Laws.familyNibble]
theorem Laws.OpNibble.call : ∀ a, Laws.OpNibble.Statement (.call a) := by intros; simp [Laws.OpNibble.Statement, encode, Laws.familyNibble]
theorem Laws.OpNibble.seImm : ∀ a b, Laws.OpNibble.Statement (.seImm a b) := by intros; simp [Laws.OpNibble.Statement, encode, Laws.familyNibble]
theorem Laws.OpNibble.sneImm : ∀ a b, Laws.OpNibble.Statement (.sneImm a b) := by intros; simp [Laws.OpNibble.Statement, encode, Laws.familyNibble]
theorem Laws.OpNibble.seReg : ∀ a b, Laws.OpNibble.Statement (.seReg a b) := by intros; simp [Laws.OpNibble.Statement, encode, Laws.familyNibble]
theorem Laws.OpNibble.ldImm : ∀ a b, Laws.OpNibble.Statement (.ldImm a b) := by intros; simp [Laws.OpNibble.Statement, encode, Laws.familyNibble]
theorem Laws.OpNibble.addImm : ∀ a b, Laws.OpNibble.Statement (.addImm a b) := by intros; simp [Laws.OpNibble.Statement, encode, Laws.familyNibble]
theorem Laws.OpNibble.ldReg : ∀ a b, Laws.OpNibble.Statement (.ldReg a b) := by intros; simp [Laws.OpNibble.Statement, encode, Laws.familyNibble]
theorem Laws.OpNibble.orReg : ∀ a b, Laws.OpNibble.Statement (.orReg a b) := by intros; simp [Laws.OpNibble.Statement, encode, Laws.familyNibble]
theorem Laws.OpNibble.andReg : ∀ a b, Laws.OpNibble.Statement (.andReg a b) := by intros; simp [Laws.OpNibble.Statement, encode, Laws.familyNibble]
theorem Laws.OpNibble.xorReg : ∀ a b, Laws.OpNibble.Statement (.xorReg a b) := by intros; simp [Laws.OpNibble.Statement, encode, Laws.familyNibble]
theorem Laws.OpNibble.addReg : ∀ a b, Laws.OpNibble.Statement (.addReg a b) := by intros; simp [Laws.OpNibble.Statement, encode, Laws.familyNibble]
theorem Laws.OpNibble.subReg : ∀ a b, Laws.OpNibble.Statement (.subReg a b) := by intros; simp [Laws.OpNibble.Statement, encode, Laws.familyNibble]
theorem Laws.OpNibble.shr : ∀ a b, Laws.OpNibble.Statement (.shr a b) := by intros; simp [Laws.OpNibble.Statement, encode, Laws.familyNibble]
theorem Laws.OpNibble.subnReg : ∀ a b, Laws.OpNibble.Statement (.subnReg a b) := by intros; simp [Laws.OpNibble.Statement, encode, Laws.familyNibble]
theorem Laws.OpNibble.shl : ∀ a b, Laws.OpNibble.Statement (.shl a b) := by intros; simp [Laws.OpNibble.Statement, encode, Laws.familyNibble]
theorem Laws.OpNibble.sneReg : ∀ a b, Laws.OpNibble.Statement (.sneReg a b) := by intros; simp [Laws.OpNibble.Statement, encode, Laws.familyNibble]
theorem Laws.OpNibble.ldI : ∀ a, Laws.OpNibble.Statement (.ldI a) := by intros; simp [Laws.OpNibble.Statement, encode, Laws.familyNibble]
theorem Laws.OpNibble.jpV0 : ∀ a, Laws.OpNibble.Statement (.jpV0 a) := by intros; simp [Laws.OpNibble.Statement, encode, Laws.familyNibble]
theorem Laws.OpNibble.rnd : ∀ a b, Laws.OpNibble.Statement (.rnd a b) := by intros; simp [Laws.OpNibble.Statement, encode, Laws.familyNibble]
theorem Laws.OpNibble.drw : ∀ a b c, Laws.OpNibble.Statement (.drw a b c) := by intros; simp [Laws.OpNibble.Statement, encode, Laws.familyNibble]
theorem Laws.OpNibble.skp : ∀ a, Laws.OpNibble.Statement (.skp a) := by intros; simp [Laws.OpNibble.Statement, encode, Laws.familyNibble]
theorem Laws.OpNibble.sknp : ∀ a, Laws.OpNibble.Statement (.sknp a) := by intros; simp [Laws.OpNibble.Statement, encode, Laws.familyNibble]
theorem Laws.OpNibble.ldVxDT : ∀ a, Laws.OpNibble.Statement (.ldVxDT a) := by intros; simp [Laws.OpNibble.Statement, encode, Laws.familyNibble]
theorem Laws.OpNibble.ldVxK : ∀ a, Laws.OpNibble.Statement (.ldVxK a) := by intros; simp [Laws.OpNibble.Statement, encode, Laws.familyNibble]
theorem Laws.OpNibble.ldDTVx : ∀ a, Laws.OpNibble.Statement (.ldDTVx a) := by intros; simp [Laws.OpNibble.Statement, encode, Laws.familyNibble]
theorem Laws.OpNibble.ldSTVx : ∀ a, Laws.OpNibble.Statement (.ldSTVx a) := by intros; simp [Laws.OpNibble.Statement, encode, Laws.familyNibble]
theorem Laws.OpNibble.addIVx : ∀ a, Laws.OpNibble.Statement (.addIVx a) := by intros; simp [Laws.OpNibble.Statement, encode, Laws.familyNibble]
theorem Laws.OpNibble.ldFVx : ∀ a, Laws.OpNibble.Statement (.ldFVx a) := by intros; simp [Laws.OpNibble.Statement, encode, Laws.familyNibble]
theorem Laws.OpNibble.ldBVx : ∀ a, Laws.OpNibble.Statement (.ldBVx a) := by intros; simp [Laws.OpNibble.Statement, encode, Laws.familyNibble]
theorem Laws.OpNibble.storeRegs : ∀ a, Laws.OpNibble.Statement (.storeRegs a) := by intros; simp [Laws.OpNibble.Statement, encode, Laws.familyNibble]
theorem Laws.OpNibble.loadRegs : ∀ a, Laws.OpNibble.Statement (.loadRegs a) := by intros; simp [Laws.OpNibble.Statement, encode, Laws.familyNibble]

end Sys2Proof
end

