-- ==== Sys2Proof/Laws/Step.lean ====
section
/-! SUPPORT. What a step can do, said once (40_cycle R101 to R108), and that the word placed by withFetchWord is the word the
next step runs. -/

namespace Sys2Proof.Machine

/-! ## The coupled tick -/

@[simp] theorem tickIfCoupled_fsm (t : State) : (tickIfCoupled t).fsm = t.fsm := by
  unfold tickIfCoupled; split <;> rfl

/-- The coupled tick gives its state back or one tick of it, and ticks only a completing step. -/
theorem tickIfCoupled_cases (t : State) :
    tickIfCoupled t = t ∨ (tickIfCoupled t = tick t ∧ t.fsm = .running ∧ t.timerCoupled = true) := by
  unfold tickIfCoupled
  split
  · rename_i h; exact .inr ⟨rfl, h⟩
  · exact .inl rfl

theorem finish_eq_next {r : Result} {t : State} : finish r = .next t ↔ ∃ u, r = .next u ∧ t = tickIfCoupled u := by
  cases r <;> simp [finish, eq_comm]

/-! ## The four ways of a step -/

/-- A step is inert in Faulted; else its fetch leaves memory, or its word is invalid, or its instruction runs. -/
theorem step_cases (s : State) :
    (s.fsm = .faulted ∧ step s = .next s) ∨
    (s.fsm ≠ .faulted ∧ outOfBounds s.pc 2 = true ∧ step s = raise (memoryOutOfBoundsRecord s.pc) s) ∨
    (s.fsm ≠ .faulted ∧ outOfBounds s.pc 2 = false ∧ decodeWord (fetchWord s) = none ∧
      step s = raise (invalidOpcodeRecord (fetchWord s) s.pc) s) ∨
    (∃ i, s.fsm ≠ .faulted ∧ outOfBounds s.pc 2 = false ∧ decodeWord (fetchWord s) = some i ∧
      step s = finish (exec i s)) := by
  unfold step cycle
  by_cases h : s.fsm = .faulted
  · simp [h]
  · cases ho : outOfBounds s.pc 2 <;> cases hd : decodeWord (fetchWord s) <;> simp [h]

/-! ## The placed word -/

theorem readyToFetch_ready (s : State) : (readyToFetch s).fsm ≠ .faulted ∧ outOfBounds (readyToFetch s).pc 2 = false := by
  have h1 : (if s.fsm = .faulted then { s with fsm := .running, fault := .clear } else s : State).fsm ≠ .faulted := by
    split
    · simp
    · assumption
  unfold readyToFetch
  simp only
  generalize (if s.fsm = .faulted then { s with fsm := .running, fault := .clear } else s : State) = u at *
  split
  · exact ⟨h1, rfl⟩
  · rename_i h; exact ⟨h1, by simpa using h⟩

/-- A state that is ready to fetch is left as it is. -/
theorem readyToFetch_eq {s : State} (h1 : s.fsm ≠ .faulted) (h2 : outOfBounds s.pc 2 = false) : readyToFetch s = s := by
  simp [readyToFetch, h1, h2]

theorem fetchWord_placeWord (s : State) (w : Word) : fetchWord (placeWord s w) = w := by
  have h := (readyToFetch_ready s).2
  rw [outOfBounds_eq_false_iff] at h
  generalize hr : readyToFetch s = r at h
  have hm : (placeWord s w).mem = (r.mem.write r.pc.toNat (highByte w)).write (r.pc.toNat + 1) (lowByte w) := by
    rw [← hr]; rfl
  have hp : (placeWord s w).pc = r.pc := by rw [← hr]; rfl
  unfold fetchWord
  rw [hm, hp, Memory.read_write_other (by omega), Memory.read_write_same (by omega), Memory.read_write_same (by omega)]
  exact joinBytes_bytes w

/-- The step after placing a table row's word runs exactly the instruction the decoder reads from that row. -/
theorem step_withFetchWord (s : State) {nbits w : Nat} {i : Instr} (h : decodeTableWord nbits w = some i) :
    step (s.withFetchWord nbits w) = finish (exec i (s.withFetchWord nbits w)) := by
  rw [decodeTableWord_eq] at h
  have hready := readyToFetch_ready s
  rcases step_cases (s.withFetchWord nbits w) with ⟨hf, _⟩ | ⟨_, ho, _⟩ | ⟨_, _, hd, _⟩ | ⟨j, _, _, hd, hs⟩
  · exact absurd hf hready.1
  · have : outOfBounds (readyToFetch s).pc 2 = true := ho
    rw [hready.2] at this
    exact absurd this (by simp)
  · rw [State.withFetchWord, fetchWord_placeWord, h] at hd
    exact absurd hd (by simp)
  · rw [State.withFetchWord, fetchWord_placeWord, h] at hd
    rw [hs, Option.some.inj hd]

end Sys2Proof.Machine
end

