-- ==== Sys2Proof/Laws/Transactions.lean ====
section
/-! SUPPORT. What a transaction does to the session beside the core (70_reset R249), and the two ends of a run (40_cycle R112). -/

namespace Sys2Proof.Machine

/-! ## Session.used, one lemma per field -/

@[simp] theorem Session.used_core (s : State) : (Session.used s).core = s := rfl
@[simp] theorem Session.used_loadOpen (s : State) : (Session.used s).loadOpen = false := rfl

/-- A transaction that answers, other than reset, leaves a session in which `load` has no move. -/
theorem transact_used {x : Transaction} (hx : x ≠ .reset) {q q' : Session} {r : Reply}
    (h : transact x q = .next (r, q')) : q' = .used q'.core := by
  cases x <;> simp only [transact, transactLoad, transactStep] at h
  · exact absurd rfl hx
  all_goals (repeat' split at h) <;> simp at h <;> rw [← h.2] <;> rfl

/-! ## The end of a run -/

theorem atSelfJump_iff {s : State} :
    atSelfJump s = true ↔ outOfBounds s.pc 2 = false ∧ decodeWord (fetchWord s) = some (.jp (s.pc.setWidth 12)) := by
  simp [atSelfJump]

theorem runEnded_iff {s : State} : runEnded s = true ↔ s.fsm = .faulted ∨ atSelfJump s = true := by
  simp [runEnded]

/-- A step at a self-jump is that jump, and then the tick if it is coupled. -/
theorem step_atSelfJump {s : State} (hf : s.fsm ≠ .faulted) (h : atSelfJump s = true) :
    step s = finish (exec (.jp (s.pc.setWidth 12)) s) := by
  obtain ⟨ho, hd⟩ := atSelfJump_iff.1 h
  rcases step_cases s with ⟨h', _⟩ | ⟨_, h', _⟩ | ⟨_, _, h', _⟩ | ⟨i, _, _, h', e⟩
  · exact absurd h' hf
  · rw [ho] at h'; exact absurd h' (by simp)
  · rw [hd] at h'; exact absurd h' (by simp)
  · rw [hd] at h'; rw [e, Option.some.inj h']

end Sys2Proof.Machine
end

