-- ==== Sys2Proof/Tests/Slice0.lean ====
section
/-! SUPPORT. Tests. Expected results are the spec's own vectors (95_test_vectors), examples and tables, named in each comment; the
start states are theirs: reset state, default FONT, TIMER_COUPLED = false unless the vector is coupled. -/

namespace Sys2Proof.Tests

open Sys2Proof.Machine

/-! ## Helpers -/

/-- The start state of a vector (95_test_vectors section 0). -/
def start : State := State.resetWith defaultFont false 0

/-- The same with TIMER_COUPLED = true. -/
def startCoupled : State := State.resetWith defaultFont true 0

/-- Bytes poked into memory. -/
def poke (a : Nat) (bs : List Byte) (s : State) : State := { s with mem := s.mem.writeBytes a bs }

/-- Registers set from pairs of index and value. -/
def regs (l : List (Nibble × Byte)) (s : State) : State := l.foldl (fun s p => setV p.1 p.2 s) s

/-- `p` of the state after one step at the word `w`. -/
def after (w : Nat) (s : State) (p : State → Bool) : Bool :=
  match step (s.withFetchWord 16 w) with
  | .next t => p t
  | _ => false

/-- `p` of the state after `exec`. -/
def execs (i : Instr) (s : State) (p : State → Bool) : Bool :=
  match exec i s with
  | .next t => p t
  | _ => false

/-- V[r] of a state as a number. -/
def v (r : Nibble) (t : State) : Nat := (getV r t).toNat

/-- A memory byte of a state as a number. -/
def m (a : Nat) (t : State) : Nat := (t.mem.read a).toNat

/-- The step took MemoryOutOfBounds with this address. -/
def outAt (a : Word) (t : State) : Bool := t.fsm == .faulted && t.fault == ⟨.memoryOutOfBounds, 0x0000#16, 0x0000#16, a⟩

/-! ## WellFormed: an ill-formed term for each check (30_encoding R84) -/

theorem test_wellFormed_refuses_sys_0E0 : Instr.wellFormed (.sys 0x0E0#12) = false := by decide
theorem test_wellFormed_refuses_sys_0EE : Instr.wellFormed (.sys 0x0EE#12) = false := by decide
theorem test_wellFormed_accepts_sys_0E1 : Instr.wellFormed (.sys 0x0E1#12) = true := by decide

/-! ## Decoding: a word written out from the patterns of 30_encoding R86 for each constructor -/

theorem test_decode_cls : decodeTableWord 16 0x00E0 = some .cls := by decide
theorem test_decode_ret : decodeTableWord 16 0x00EE = some .ret := by decide
theorem test_decode_sys : decodeTableWord 16 0x0123 = some (.sys 0x123#12) := by decide
theorem test_decode_jp : decodeTableWord 16 0x1ABC = some (.jp 0xABC#12) := by decide
theorem test_decode_call : decodeTableWord 16 0x2ABC = some (.call 0xABC#12) := by decide
theorem test_decode_seImm : decodeTableWord 16 0x3A5C = some (.seImm 0xA#4 0x5C#8) := by decide
theorem test_decode_sneImm : decodeTableWord 16 0x4A5C = some (.sneImm 0xA#4 0x5C#8) := by decide
theorem test_decode_seReg : decodeTableWord 16 0x5AB0 = some (.seReg 0xA#4 0xB#4) := by decide
theorem test_decode_ldImm : decodeTableWord 16 0x6A5C = some (.ldImm 0xA#4 0x5C#8) := by decide
theorem test_decode_addImm : decodeTableWord 16 0x7A5C = some (.addImm 0xA#4 0x5C#8) := by decide
theorem test_decode_ldReg : decodeTableWord 16 0x8AB0 = some (.ldReg 0xA#4 0xB#4) := by decide
theorem test_decode_orReg : decodeTableWord 16 0x8AB1 = some (.orReg 0xA#4 0xB#4) := by decide
theorem test_decode_andReg : decodeTableWord 16 0x8AB2 = some (.andReg 0xA#4 0xB#4) := by decide
theorem test_decode_xorReg : decodeTableWord 16 0x8AB3 = some (.xorReg 0xA#4 0xB#4) := by decide
theorem test_decode_addReg : decodeTableWord 16 0x8AB4 = some (.addReg 0xA#4 0xB#4) := by decide
theorem test_decode_subReg : decodeTableWord 16 0x8AB5 = some (.subReg 0xA#4 0xB#4) := by decide
theorem test_decode_shr : decodeTableWord 16 0x8AB6 = some (.shr 0xA#4 0xB#4) := by decide
theorem test_decode_subnReg : decodeTableWord 16 0x8AB7 = some (.subnReg 0xA#4 0xB#4) := by decide
theorem test_decode_shl : decodeTableWord 16 0x8ABE = some (.shl 0xA#4 0xB#4) := by decide
theorem test_decode_sneReg : decodeTableWord 16 0x9AB0 = some (.sneReg 0xA#4 0xB#4) := by decide
theorem test_decode_ldI : decodeTableWord 16 0xAABC = some (.ldI 0xABC#12) := by decide
theorem test_decode_jpV0 : decodeTableWord 16 0xBABC = some (.jpV0 0xABC#12) := by decide
theorem test_decode_rnd : decodeTableWord 16 0xCA5C = some (.rnd 0xA#4 0x5C#8) := by decide
theorem test_decode_drw : decodeTableWord 16 0xDABC = some (.drw 0xA#4 0xB#4 0xC#4) := by decide
theorem test_decode_skp : decodeTableWord 16 0xEA9E = some (.skp 0xA#4) := by decide
theorem test_decode_sknp : decodeTableWord 16 0xEAA1 = some (.sknp 0xA#4) := by decide
theorem test_decode_ldVxDT : decodeTableWord 16 0xFA07 = some (.ldVxDT 0xA#4) := by decide
theorem test_decode_ldVxK : decodeTableWord 16 0xFA0A = some (.ldVxK 0xA#4) := by decide
theorem test_decode_ldDTVx : decodeTableWord 16 0xFA15 = some (.ldDTVx 0xA#4) := by decide
theorem test_decode_ldSTVx : decodeTableWord 16 0xFA18 = some (.ldSTVx 0xA#4) := by decide
theorem test_decode_addIVx : decodeTableWord 16 0xFA1E = some (.addIVx 0xA#4) := by decide
theorem test_decode_ldFVx : decodeTableWord 16 0xFA29 = some (.ldFVx 0xA#4) := by decide
theorem test_decode_ldBVx : decodeTableWord 16 0xFA33 = some (.ldBVx 0xA#4) := by decide
theorem test_decode_storeRegs : decodeTableWord 16 0xFA55 = some (.storeRegs 0xA#4) := by decide
theorem test_decode_loadRegs : decodeTableWord 16 0xFA65 = some (.loadRegs 0xA#4) := by decide

/-! Words that no row matches (30_encoding R89), and a string too short for an instruction. -/

theorem test_decode_invalid :
    [0x5121#16, 0x8128#16, 0x812F#16, 0x9ABF#16, 0xE1A0#16, 0xE19F#16, 0xF000#16, 0xF2FF#16, 0xF175#16].all
      (fun w => decodeWord w == none) = true := by decide
theorem test_decode_truncated : decode [0x60#8] = .error .truncated := by decide
theorem test_decode_rest : decode [0x6A#8, 0x5C#8, 0x77#8] = .ok (.ldImm 0xA#4 0x5C#8, [0x77#8]) := by decide

/-! ## One step at each instruction -/

/-- V-0-1 -/
theorem test_cls_clears :
    after 0x00E0 (poke 0x6FF [0xAA#8, 0xFF#8] (poke 0x7FF [0x01#8, 0xBB#8] start))
      (fun t => m 0x6FF t == 0xAA && m 0x700 t == 0 && m 0x7FF t == 0 && m 0x800 t == 0xBB &&
        t.pc == 0x202#16) = true := by decide +kernel
/-- V-0-3 -/
theorem test_ret_pops :
    after 0x00EE (poke 0x6CE [0x02#8, 0x02#8] { start with sp := 0x6CD#16 })
      (fun t => t.pc == 0x202#16 && t.sp == 0x6CF#16 && m 0x6CE t == 2) = true := by decide
/-- V-0-2 -/
theorem test_ret_underflow :
    after 0x00EE (start) (fun t => t.fault == ⟨.stackUnderflow, 0#16, 0#16, 0#16⟩ && t.fsm == .faulted &&
      t.sp == 0x6CF#16 && t.pc == 0x200#16) = true := by decide
/-- V-0-5 -/
theorem test_sys_jumps :
    after 0x0123 (start) (fun t => t.pc == 0x123#16 && t.sp == 0x6CF#16) = true := by decide
/-- V-1-2 -/
theorem test_jp_self :
    after 0x1200 (start) (fun t => t == start.withFetchWord 16 0x1200) = true := by decide
/-- V-1-1, its second step -/
theorem test_jp_out_of_memory :
    after 0x1FFF start (fun t => match step t with | .next u => outAt 0x1000#16 u && u.pc == 0xFFF#16 | _ => false) = true := by decide
/-- V-2-1 -/
theorem test_call_pushes :
    after 0x2ABC ({ start with pc := 0x345#16 }) (fun t => m 0x6CE t == 0x03 && m 0x6CF t == 0x47 && t.sp == 0x6CD#16 &&
      t.pc == 0xABC#16) = true := by decide
/-- V-2-3 -/
theorem test_call_overflow :
    after 0x2300 ({ start with sp := 0x6AF#16 }) (fun t => t.fault.kind == .stackOverflow && m 0x6AE t == 0 &&
      m 0x6AF t == 0 && t.sp == 0x6AF#16 && t.pc == 0x200#16) = true := by decide
/-- V-3-1 -/
theorem test_seImm_equal :
    after 0x332A (regs [(3, 0x2A)] start) (fun t => t.pc == 0x204#16) = true := by decide
/-- V-3-2 -/
theorem test_seImm_different :
    after 0x332A (regs [(3, 0x2B)] start) (fun t => t.pc == 0x202#16) = true := by decide
/-- V-4-1 -/
theorem test_sneImm_different :
    after 0x4001 (start) (fun t => t.pc == 0x204#16) = true := by decide
/-- V-4-2 -/
theorem test_sneImm_equal :
    after 0x4000 (start) (fun t => t.pc == 0x202#16) = true := by decide
/-- V-5-1 -/
theorem test_seReg_equal :
    after 0x5120 (regs [(1, 7), (2, 7)] start) (fun t => t.pc == 0x204#16) = true := by decide
/-- V-5-2 -/
theorem test_seReg_different :
    after 0x5120 (regs [(1, 7), (2, 8)] start) (fun t => t.pc == 0x202#16) = true := by decide
/-- V-6-1 -/
theorem test_ldImm :
    after 0x6AAB (start) (fun t => v 10 t == 0xAB && t.pc == 0x202#16) = true := by decide
/-- V-7-1 -/
theorem test_addImm_no_flag :
    after 0x7A05 (regs [(10, 0xAB), (15, 3)] start) (fun t => v 10 t == 0xB0 && v 15 t == 3) = true := by decide
/-- V-7-2 -/
theorem test_addImm_wraps :
    after 0x74FF (regs [(4, 0xFF)] start) (fun t => v 4 t == 0xFE && v 15 t == 0) = true := by decide
/-- V-8-1 -/
theorem test_ldReg :
    after 0x8120 (regs [(2, 0x5C), (15, 9)] start) (fun t => v 1 t == 0x5C && v 15 t == 9) = true := by decide
/-- V-8-2 -/
theorem test_orReg :
    after 0x8011 (regs [(0, 0xF0), (1, 0x0F), (15, 9)] start) (fun t => v 0 t == 0xFF && v 15 t == 9) = true := by decide
/-- V-8-3 -/
theorem test_andReg :
    after 0x8012 (regs [(0, 0xFC), (1, 0x3F), (15, 9)] start) (fun t => v 0 t == 0x3C && v 15 t == 9) = true := by decide
/-- V-8-4 -/
theorem test_xorReg :
    after 0x8013 (regs [(0, 0xFF), (1, 0x0F), (15, 9)] start) (fun t => v 0 t == 0xF0 && v 15 t == 9) = true := by decide
/-- S2, the source's example -/
theorem test_addReg_carry :
    after 0x8124 (regs [(1, 200), (2, 100), (15, 7)] start) (fun t => v 1 t == 44 && v 2 t == 100 && v 15 t == 1 &&
      t.pc == 0x202#16) = true := by decide
/-- V-8F-3 -/
theorem test_addReg_into_VF :
    after 0x8F14 (regs [(15, 200), (1, 100)] start) (fun t => v 15 t == 0x65 && v 1 t == 100) = true := by decide
/-- S3, the source's example -/
theorem test_subReg_borrow :
    after 0x8125 (regs [(1, 10), (2, 20), (15, 1)] start) (fun t => v 1 t == 246 && v 15 t == 0) = true := by decide
/-- V-8-10 -/
theorem test_subReg_equal :
    after 0x8125 (regs [(1, 7), (2, 7), (15, 1)] start) (fun t => v 1 t == 0 && v 15 t == 0) = true := by decide
/-- V-8-12 -/
theorem test_shr_ignores_y :
    after 0x8356 (regs [(3, 0xFE), (5, 0x33), (15, 1)] start)
      (fun t => v 3 t == 0x7F && v 5 t == 0x33 && v 15 t == 0) = true := by decide
/-- V-8-11 -/
theorem test_shr_bit_out :
    after 0x8306 (regs [(3, 0x05)] start) (fun t => v 3 t == 2 && v 15 t == 1) = true := by decide
/-- V-8-14 -/
theorem test_subnReg :
    after 0x8127 (regs [(1, 20), (2, 10), (15, 1)] start) (fun t => v 1 t == 246 && v 15 t == 0) = true := by decide
/-- V-8F-13 -/
theorem test_subnReg_from_VF :
    after 0x81F7 (regs [(1, 5), (15, 9)] start) (fun t => v 15 t == 1 && v 1 t == 0xFC) = true := by decide
/-- V-8-16 -/
theorem test_shl_bit_out :
    after 0x830E (regs [(3, 0x81)] start) (fun t => v 3 t == 2 && v 15 t == 1) = true := by decide
/-- V-8F-16 -/
theorem test_shl_VF :
    after 0x8F0E (regs [(15, 0x80)] start) (fun t => v 15 t == 2) = true := by decide
/-- V-9-1 -/
theorem test_sneReg_different :
    after 0x9120 (regs [(1, 7), (2, 8)] start) (fun t => t.pc == 0x204#16) = true := by decide
/-- V-9-2 -/
theorem test_sneReg_equal :
    after 0x9120 (regs [(1, 7), (2, 7)] start) (fun t => t.pc == 0x202#16) = true := by decide
/-- V-A-1 -/
theorem test_ldI :
    after 0xAFFF ({ start with I := 0xF123#16 }) (fun t => t.I == 0x0FFF#16 && t.pc == 0x202#16) = true := by decide
/-- V-B-3 -/
theorem test_jpV0_uses_V0 :
    after 0xB2FF (regs [(0, 2), (2, 0x77)] start) (fun t => t.pc == 0x301#16) = true := by decide
/-- V-B-2 -/
theorem test_jpV0_no_mask :
    after 0xBFFF (regs [(0, 0xFF)] start) (fun t => t.pc == 0x10FE#16) = true := by decide
/-- V-C-13: whatever the random byte is, the low four bits are 0. -/
theorem test_rnd_masked :
    (getV 1 (setV 1 (Config.rnd 0 &&& 0xF0#8) start)).getLsbD 3 = false ∧
      exec (.rnd 1 0xF0#8) start = writeReg 1 (Config.rnd 0 &&& 0xF0#8) { start with draws := 1 } := by
  refine ⟨?_, rfl⟩
  rw [show getV 1 (setV 1 (Config.rnd 0 &&& 0xF0#8) start) = Config.rnd 0 &&& 0xF0#8 from rfl, BitVec.getLsbD_and]
  simp
/-- V-D-3 -/
theorem test_drw_wraps_right :
    after 0xD011 (regs [(0, 62), (1, 5)] (poke 0x300 [0xFF#8] { start with I := 0x300#16 }))
      (fun t => m 0x728 t == 0xFC && m 0x72F t == 0x03 && v 15 t == 0 && pixelLit t.mem 62 5 &&
        !pixelLit t.mem 6 5) = true := by decide
/-- V-D-5 -/
theorem test_drw_collides :
    after 0xD012 (regs [(0, 1), (1, 0)] (poke 0x300 [0xC0#8, 0xC0#8] (poke 0x700 [0x20#8] (poke 0x708 [0x10#8] { start with I := 0x300#16 })))) (fun t => m 0x700 t == 0x40 && m 0x708 t == 0x70 && v 15 t == 1) = true := by decide
/-- Ex9E of 46_family_E R180, R182: V2 = 0x35 selects key 5 -/
theorem test_skp_pressed :
    after 0xE29E (setKey 5 true (regs [(2, 0x35)] start)) (fun t => t.pc == 0x204#16) = true := by decide
/-- 46_family_E R180 -/
theorem test_skp_released :
    after 0xE29E (regs [(2, 5)] start) (fun t => t.pc == 0x202#16) = true := by decide
/-- 46_family_E R181, R182: V2 = 0xFF selects key 15 -/
theorem test_sknp_pressed :
    after 0xE2A1 (setKey 15 true (regs [(2, 0xFF)] start)) (fun t => t.pc == 0x202#16) = true := by decide
/-- 46_family_E R181 -/
theorem test_sknp_released :
    after 0xE2A1 (regs [(2, 5)] start) (fun t => t.pc == 0x204#16) = true := by decide
/-- 47_family_F R185, coupled: the value read is the one before the tick -/
theorem test_ldVxDT_before_tick :
    after 0xF307 ({ startCoupled with DT := 0x10#8 }) (fun t => v 3 t == 0x10 && t.DT == 0x0F#8) = true := by decide
/-- 47_family_F R186: keys 3, 9 and 12 pressed -/
theorem test_ldVxK_lowest :
    after 0xF30A (setKey 12 true (setKey 9 true (setKey 3 true start)))
      (fun t => v 3 t == 3 && t.pc == 0x202#16 && t.fsm == .running) = true := by decide
/-- S8, first step, coupled: no tick -/
theorem test_ldVxK_polls :
    after 0xF30A ({ startCoupled with DT := 10#8 }) (fun t => t.fsm == .waitingForKey && t.pc == 0x200#16 && v 3 t == 0 &&
      t.DT == 10#8) = true := by decide
/-- 47_family_F R187 -/
theorem test_ldDTVx :
    after 0xF215 (regs [(2, 7)] start) (fun t => t.DT == 7#8 && t.ST == 0#8) = true := by decide
/-- 70_reset_and_hazards R254: the write, then the tick -/
theorem test_ldDTVx_coupled :
    after 0xF215 (regs [(2, 7)] startCoupled) (fun t => t.DT == 6#8) = true := by decide
/-- 47_family_F R188 -/
theorem test_ldSTVx :
    after 0xF218 (regs [(2, 3)] start) (fun t => t.ST == 3#8 && t.DT == 0#8) = true := by decide
/-- 47_family_F R189 -/
theorem test_addIVx :
    after 0xF11E (regs [(1, 0x10)] { start with I := 0x300#16 })
      (fun t => t.I == 0x310#16 && v 15 t == 0) = true := by decide
/-- 47_family_F R189 -/
theorem test_addIVx_wraps :
    after 0xF11E (regs [(1, 1)] { start with I := 0xFFFF#16 }) (fun t => t.I == 0#16) = true := by decide
/-- 47_family_F R190: 5 × 255 -/
theorem test_ldFVx_unmasked :
    after 0xF029 (regs [(0, 0xFF)] start) (fun t => t.I == 0x4FB#16) = true := by decide
/-- S7, the source's example -/
theorem test_ldBVx :
    after 0xF033 (regs [(0, 157)] { start with I := 0x300#16 })
      (fun t => m 0x300 t == 1 && m 0x301 t == 5 && m 0x302 t == 7 && t.I == 0x300#16 &&
        t.pc == 0x202#16) = true := by decide
/-- 47_family_F R191, 20_memory R63: nothing is written -/
theorem test_ldBVx_out_of_memory :
    after 0xF033 (regs [(0, 255)] { start with I := 0xFFE#16 })
      (fun t => outAt 0x1000#16 t && m 0xFFE t == 0) = true := by decide
/-- 47_family_F R192 -/
theorem test_storeRegs :
    after 0xF255 (regs [(0, 0x11), (1, 0x22), (2, 0x33), (3, 0x44)] { start with I := 0x400#16 })
      (fun t => m 0x400 t == 0x11 && m 0x401 t == 0x22 && m 0x402 t == 0x33 && m 0x403 t == 0 &&
        t.I == 0x400#16) = true := by decide
/-- 47_family_F R193 -/
theorem test_loadRegs :
    after 0xF265 (regs [(3, 9)] (poke 0x300 [1#8, 5#8, 7#8, 8#8] { start with I := 0x300#16 }))
      (fun t => v 0 t == 1 && v 1 t == 5 && v 2 t == 7 && v 3 t == 9 && t.I == 0x300#16) = true := by decide
/-- 47_family_F R193, 20_memory R64 -/
theorem test_loadRegs_out_of_memory :
    after 0xF265 ({ start with I := 0xFFFF#16 }) (fun t => outAt 0xFFFF#16 t) = true := by decide

/-! ## The cycle, reset and the transactions -/

/-- V-C-1 -/
theorem test_fetch_beyond_memory :
    (match step { start with pc := 0xFFF#16 } with | .next t => outAt 0x1000#16 t && t.pc == 0xFFF#16 | _ => false) = true := by decide
/-- V-C-4, first step, coupled: no tick -/
theorem test_invalid_opcode :
    after 0xF000 ({ startCoupled with DT := 5#8 }) (fun t => t.fsm == .faulted &&
      t.fault == ⟨.invalidOpcode, 0xF000#16, 0x200#16, 0#16⟩ && t.DT == 5#8) = true := by decide
/-- V-0-4, first step: reset memory runs 0x0000 and jumps to 0 -/
theorem test_step_from_reset :
    (match step State.reset with | .next t => t.pc == 0#16 && t.fsm == .running | _ => false) = true := by decide
/-- S6: DT = 2, ST = 1, three ticks -/
theorem test_tick_floor :
    (let t := tick { start with DT := 2#8, ST := 1#8 }; t.DT == 1#8 && t.ST == 0#8 && (tick t).DT == 0#8 &&
      (tick (tick t)).DT == 0#8) = true := by decide
/-- 70_reset_and_hazards R247: the loaded word is the one fetched -/
theorem test_load_then_step :
    (match transactAll [.load [0x6A#8, 0xAB#8], .step] Session.reset with | .next q => v 10 q.core == 0xAB && !q.loadOpen | _ => false) = true := by decide

/-! ## Witnesses: states and operands that meet the hypotheses of each obligation, each clause at a boundary of its range -/

theorem test_witness_DecodeEncodeRoundTrip : Instr.wellFormed (.sys 0x0EF#12) = true ∧
  Instr.wellFormed (.drw 15 15 15) = true := by
  decide
theorem test_witness_EncodeDecodeRoundTrip : decodeWord 0xDFFF#16 = some (.drw 15 15 15) := by decide
theorem test_witness_DecodeFollowsOpcodeMap :
    ∃ r r' : OpcodeRow, r ∈ opcodeMap ∧ r' ∈ opcodeMap ∧ r ≠ r' ∧ r.selects 0x00E0#16 = true ∧
      r'.selects 0x00E0#16 = true :=
  ⟨⟨"CLS", 0xFFFF#16, 0x00E0#16⟩, ⟨"SYS_nnn", 0xF000#16, 0x0000#16⟩, by decide, by decide, by decide, by decide, by decide⟩
theorem test_witness_ResetMemory : 15 < 16 ∧ 4 < 5 ∧ 0x050 ≤ 0xFFF ∧ 0xFFF ≤ 0xFFF ∧ 63 < 64 ∧ 31 < 32 := by decide
theorem test_witness_ClsClearsFramebuffer : 0x700 ≤ 0x7FF ∧ 0x7FF ≤ 0x7FF := by decide
theorem test_witness_RetPopsReturnAddress :
    (let s := { start with sp := 0xFFD#16 }; s.sp.toNat ≠ 0x6CF ∧ s.sp.toNat + 2 ≤ 0xFFF) ∧ start.sp.toNat = 0x6CF ∧
    (let s := { start with sp := 0xFFE#16 }; 0xFFF < s.sp.toNat + 2) := by decide
theorem test_witness_CallPushesReturnAddress :
    (let s := { start with sp := 0x001#16 }; s.sp.toNat ≠ 0x6AF ∧ 1 ≤ s.sp.toNat ∧ s.sp.toNat ≤ 0xFFF) ∧
    (let s := { start with sp := 0x6AF#16 }; s.sp.toNat = 0x6AF) ∧ (let s := { start with sp := 0#16 }; s.sp.toNat = 0) ∧
    (let s := { start with sp := 0x1000#16 }; 0xFFF < s.sp.toNat) := by decide
theorem test_witness_CallThenRetReturns :
    (LegalSp start.sp ∧ start.sp.toNat ≠ 0x6AF) ∧ LegalSp 0x6B1#16 ∧ (0x6B1#16).toNat ≠ 0x6AF := by decide
theorem test_witness_JumpsAndIndexLoad : (0x0E1#12 ≠ 0x0E0#12 ∧ 0x0E1#12 ≠ 0x0EE#12) ∧
    execs (.jp 0xFFF#12) start (fun t => decide (0xFFE < t.pc.toNat)) = true ∧
    execs (.jpV0 0xFFF#12) start (fun t => decide (0xFFE < t.pc.toNat)) = true := by decide
theorem test_witness_SkipsOnCompare :
    execs (.seImm 0 0) { start with pc := 0xFFE#16 } (fun t => t.pc == 0x1002#16) = true ∧
    execs (.sneImm 0 0) { start with pc := 0xFFE#16 } (fun t => t.pc == 0x1000#16) = true := by decide
theorem test_witness_AddRegisterCases :
    ((1 : Nibble) ≠ VF ∧ (2 : Nibble) ≠ VF) ∧ ((14 : Nibble) ≠ VF ∧ (15 : Nibble) = VF) := by decide
theorem test_witness_SubtractRegisterCases :
    ((1 : Nibble) ≠ VF ∧ (2 : Nibble) ≠ VF) ∧ ((14 : Nibble) ≠ VF ∧ (15 : Nibble) = VF) := by decide
theorem test_witness_ShiftCases : (14 : Nibble) ≠ VF ∧ (15 : Nibble) = VF := by decide
theorem test_witness_AdditionLaw : (0 : Nibble) ≠ VF ∧ (14 : Nibble) ≠ VF := by decide
theorem test_witness_SubtractionLaw : (1 : Nibble) ≠ VF ∧ (2 : Nibble) ≠ VF ∧
    (let s := regs [(1, 20), (2, 10)] start; v 1 s > v 2 s) ∧ (let s := regs [(1, 7), (2, 7)] start; v 1 s = v 2 s) ∧
    (let s := regs [(1, 0), (2, 255)] start; v 1 s < v 2 s) := by decide
theorem test_witness_RandomByteMasked : (0x0F#8).getLsbD 4 = false := by decide

/-- A sprite of 15 rows that ends just below the framebuffer. -/
theorem test_witness_DrawPixels_low : ∀ r < 15, 0x6F1 + r ≤ 0xFFF ∧ (0x6F1 + r < 0x700 ∨ 0x800 ≤ 0x6F1 + r) := by decide
theorem test_witness_DrawPixels : SpriteApart { start with I := 0x6F1#16 } (0xF#4).toNat :=
  fun r hr => test_witness_DrawPixels_low r hr

/-- A state in which a lit pixel meets a lit sprite bit, and one in which none does. -/
theorem test_witness_DrawPixels_collision :
    (let s := poke 0x300 [0x80#8] (poke 0x700 [0x80#8] { start with I := 0x300#16 })
     pixelLit s.mem 0 0 = true ∧ spriteBit s 0 0 1 0 0 = true) := by decide
theorem test_witness_DrawPixels_dark : ∀ px py, px < 64 → py < 32 → pixelLit start.mem px py = true → spriteBit start 0 0 0 px py = false := by
  intro px py _ _ _
  simp [spriteBit]
theorem test_witness_DrawRowByRow : (14 : Nibble).toNat < 15 ∧ (0xFF1#16).toNat + (14 : Nibble).toNat ≤ 0xFFF := by decide
theorem test_witness_DrawTwiceRestores :
    ((0 : Nibble) ≠ VF ∧ (14 : Nibble) ≠ VF) ∧ SpriteApart { start with I := 0x6F1#16 } (0xF#4).toNat :=
  ⟨by decide, test_witness_DrawPixels⟩
theorem test_witness_KeyWait :
    (let s := setKey 12 true (setKey 5 true start)
     getKey 5 s = true ∧ ∀ j : Nibble, j.toNat < (5 : Nibble).toNat → getKey j s = false) ∧
    (∀ j : Nibble, getKey j start = false) := by decide
theorem test_witness_BcdStoresDigits : (0xFFD#16).toNat + 2 ≤ 0xFFF := by decide
theorem test_witness_StoreRegisterBlock : (0xFF0#16).toNat + (15 : Nibble).toNat ≤ 0xFFF := by decide
theorem test_witness_LoadRegisterBlock : (0xFF0#16).toNat + (15 : Nibble).toNat ≤ 0xFFF := by decide
theorem test_witness_StoreThenLoadBlock :
    ∃ t v : State, (0xFF0#16).toNat + (15 : Nibble).toNat ≤ 0xFFF ∧
      exec (.storeRegs 15) { start with I := 0xFF0#16 } = .next t ∧
      v.mem = t.mem ∧ v.I = t.I := ⟨_, _, by decide, rfl, rfl, rfl⟩
theorem test_witness_StoreThenFetch :
    (0xFF0#16).toNat + (15 : Nibble).toNat ≤ 0xFFF ∧ (0xFFD#16).toNat + 2 ≤ 0xFFF ∧
    ((0x001#16).toNat ≠ 0x6AF ∧ 1 ≤ (0x001#16).toNat ∧ (0x001#16).toNat ≤ 0xFFF) ∧ 1 ≤ (0x6AE#16).toNat ∧
    (0x700 ≤ 0x7FF ∧ 0x7FF ≤ 0x7FF) := by decide
theorem test_witness_StoreThenFetch_draw :
    SpriteApart { start with I := 0xFF1#16 } 15 ∧ (∃ t, exec (.drw 0 1 15) { start with I := 0xFF1#16 } = .next t) := ⟨fun r hr => by
        show 0xFF1 + r ≤ 0xFFF ∧ (0xFF1 + r < 0x700 ∨ 0x800 ≤ 0xFF1 + r)
        omega, _, rfl⟩
theorem test_witness_StoreThenFetch_draw_byte :
    ∀ j, j < 8 → (0xF0#8).getLsbD (7 - j) = (pixelLit start.mem (8 * 0 + j) 0 ^^ spriteBit start 0 0 5 (8 * 0 + j) 0) := by
  decide
/-- A store to the next instruction is fetched as stored, for each byte of it (20_memory R70). -/
theorem test_StoreThenFetch_bytes :
    (let t := { start with I := 0x202#16, V := Vector.replicate 16 0x12#8 }
     execs (.storeRegs 0) t (fun u => fetchWord u == 0x1200#16)) = true ∧
    (let t := { start with I := 0x201#16, V := Vector.replicate 16 0x12#8 }
     execs (.storeRegs 2) t (fun u => fetchWord u == 0x1212#16)) = true := by decide
theorem test_witness_MemoryBoundsFaults :
    (0 < (1 : Nibble).toNat ∧ 0xFFF < (0x1000#16).toNat + (1 : Nibble).toNat - 1) ∧ 0xFFF < (0xFFE#16).toNat + 2 ∧
    0xFFF < (0x1000#16).toNat + (0 : Nibble).toNat ∧ 0xFFF < (0xFF1#16).toNat + (15 : Nibble).toNat := by decide
theorem test_witness_OnlyTheseRaise : ∃ t, exec .ret start = .next t ∧ t.fsm = .faulted := ⟨_, rfl, rfl⟩
theorem test_witness_InstructionFrames : ∃ t, exec (.storeRegs 15) start = .next t ∧ t.fsm ≠ .faulted := ⟨_, rfl, by decide⟩
theorem test_witness_SoundTimerUnobserved : ∀ x, Instr.ldVxDT 0 ≠ .ldSTVx x := by decide
theorem test_witness_KeysObservedByThree : ∀ x, Instr.cls ≠ .skp x ∧ Instr.cls ≠ .sknp x ∧ Instr.cls ≠ .ldVxK x := by decide
theorem test_witness_StepRunsDecodedInstruction :
    (let s := { start with pc := 0xFFE#16 }.withFetchWord 16 0x1200
     s.fsm ≠ .faulted ∧ s.pc.toNat + 1 ≤ 0xFFF ∧
     decodeWord (joinBytes (s.mem.read s.pc.toNat) (s.mem.read (s.pc.toNat + 1))) = some (.jp 0x200#12)) := by decide
theorem test_witness_FetchBeyondMemoryFaults :
    (let s := { start with pc := 0xFFF#16 }; s.fsm ≠ .faulted ∧ 0xFFF < s.pc.toNat + 1) ∧
    (let s := { start with pc := 0xFFFF#16 }; s.fsm ≠ .faulted ∧ 0xFFF < s.pc.toNat + 1) := by decide
theorem test_witness_InvalidOpcodeFaults :
    (let s := { start with pc := 0xFFE#16 }.withFetchWord 16 0x5121
     s.fsm ≠ .faulted ∧ s.pc.toNat + 1 ≤ 0xFFF ∧
     decodeWord (joinBytes (s.mem.read s.pc.toNat) (s.mem.read (s.pc.toNat + 1))) = none) := by decide

/-- A faulted state: RET on the empty stack. -/
def faultedState : State := { start with fsm := .faulted, fault := ⟨.stackUnderflow, 0#16, 0#16, 0#16⟩ }

theorem test_witness_FaultedIsInert : (Session.mk faultedState false).core.fsm = .faulted := by decide
theorem test_witness_StepClassification :
    faultedState.fsm = .faulted ∧
    (let s := start.withFetchWord 16 0xF30A
     s.fsm ≠ .faulted ∧ FetchesKeyWait s ∧ ∀ k : Nibble, getKey k s = false) ∧
    (let s := setKey 0 true (start.withFetchWord 16 0xF30A)
     s.fsm ≠ .faulted ∧ FetchesKeyWait s ∧ getKey 0 s = true ∧ (match step s with | .next t => t.fsm == .running | _ => false) = true) ∧
    (let s := start
     s.fsm ≠ .faulted ∧ ¬ FetchesKeyWait s ∧ (match step s with | .next t => t.fsm == .running | _ => false) = true) := by decide
theorem test_witness_TimerWriteThenTick :
    start.fsm ≠ .faulted ∧ start.pc.toNat + 1 ≤ 0xFFF ∧
    decodeWord (fetchWord (start.withFetchWord 16 0xF215)) = some (.ldDTVx 2) ∧
    decodeWord (fetchWord (start.withFetchWord 16 0xF218)) = some (.ldSTVx 2) ∧
    decodeWord (fetchWord (start.withFetchWord 16 0xF207)) = some (.ldVxDT 2) := by decide

theorem test_reset_inv : State.reset.Inv := by decide
theorem test_witness_StepKeepsInvariant : ∃ t, State.reset.Inv ∧ step State.reset = .next t := ⟨_, test_reset_inv, rfl⟩
theorem test_witness_StepAlwaysAnswers : LegalSp 0x6AF#16 ∧ LegalSp 0x6CF#16 ∧ State.reset.Inv :=
  ⟨by decide, by decide, test_reset_inv⟩
theorem test_witness_TransactionsKeepInvariant :
    ∃ q' r, Session.reset.Inv ∧ transact .step Session.reset = .next (r, q') ∧
      transactAll [.step] Session.reset = .next q' :=
  ⟨_, _, ⟨test_reset_inv, fun _ => rfl⟩, rfl, rfl⟩
theorem test_witness_FaultedUntilReset :
    ∃ q', (let q : Session := ⟨faultedState, false⟩
      q.core.fsm = .faulted ∧ q.loadOpen = false ∧ Transaction.reset ∉ [Transaction.step, .tickTimers] ∧
      transactAll [.step, .tickTimers] q = .next q') := ⟨_, by decide, by decide, by decide, rfl⟩
theorem test_witness_SetKeyLatches : 0 ≤ 15 ∧ 15 ≤ 15 ∧ 15 < 16 := by decide
theorem test_witness_QueriesAnswer : 0 < 16 ∧ 15 < 16 := by decide
theorem test_witness_PixelQuery : (63 < 64 ∧ 31 < 32) ∧ 64 ≤ 64 ∧ 32 ≤ 32 := by decide
theorem test_witness_LoadCopiesImage :
    Session.reset.loadOpen = true ∧ ([] : List Byte).length ≤ 3584 ∧ (List.replicate 3584 0x01#8).length ≤ 3584 :=
  ⟨rfl, Nat.zero_le _, by rw [List.length_replicate]⟩
theorem test_witness_LoadRefusals :
    (Session.reset.loadOpen = true ∧ 3584 < (List.replicate 3585 0x01#8).length) ∧
    (∃ q' r, Transaction.load [] ≠ .reset ∧ transact (.load []) Session.reset = .next (r, q')) ∧
    (∃ q' r, Transaction.step ≠ .reset ∧ transact .step Session.reset = .next (r, q')) ∧
    (∃ q' r, Transaction.tickTimers ≠ .reset ∧ transact .tickTimers Session.reset = .next (r, q')) ∧
    (∃ q' r, Transaction.setKey 5 true ≠ .reset ∧ transact (.setKey 5 true) Session.reset = .next (r, q')) ∧
    (∃ q' r, Transaction.getKey 0 ≠ .reset ∧ transact (.getKey 0) Session.reset = .next (r, q')) :=
  ⟨⟨rfl, by rw [List.length_replicate]; omega⟩, ⟨_, _, by decide, rfl⟩, ⟨_, _, by decide, rfl⟩, ⟨_, _, by decide, rfl⟩,
    ⟨_, _, by decide, rfl⟩, ⟨_, _, by decide, rfl⟩⟩
/-- load has a move only as the first transaction after reset (decision D17, 70_reset R249). -/
theorem test_load_after_set_key : transactAll [.setKey 5 true, .load []] Session.reset = .refused .loadOutsideContract := rfl
theorem test_load_after_reset : ∃ q', transactAll [.step, .reset, .load []] Session.reset = .next q' := ⟨_, rfl⟩
theorem test_witness_StepReplies :
    (∃ q' r, transact .step Session.reset = .next (r, q') ∧ q'.core.fsm ≠ .faulted) ∧
    (∃ q' r, transact .step ⟨faultedState, false⟩ = .next (r, q') ∧ q'.core.fsm = .faulted) :=
  ⟨⟨_, _, rfl, by decide⟩, ⟨_, _, rfl, rfl⟩⟩
theorem test_witness_RunEndIsStable :
    runEnded faultedState = true ∧ faultedState.fsm = .faulted ∧
    (let s := start.withFetchWord 16 0x1200
     runEnded s = true ∧ s.fsm ≠ .faulted) ∧
    (let s := { startCoupled with pc := 0xFFE#16, fsm := .waitingForKey, DT := 0x01#8 }.withFetchWord 16 0x1FFE
     runEnded s = true ∧ s.fsm ≠ .faulted) := by decide
/-- A jump elsewhere, and a poll, do not end a run (40_cycle R112). -/
theorem test_runEnded_needs_its_own_address :
    runEnded (start.withFetchWord 16 0x1202) = false ∧ runEnded (start.withFetchWord 16 0xF00A) = false := by decide
theorem test_witness_EqualReadsEqualMemory :
    (let m := (start.mem.write 3 0x01#8).write 0x300 0x02#8
     let m' := (start.mem.write 0x300 0x02#8).write 3 0x01#8
     m.wf ∧ m'.wf ∧ m.font = m'.font ∧ m = m') := by decide

end Sys2Proof.Tests
end

/-! SUPPORT. Canonical memories are determined by what they read (10_state R38). -/

namespace Sys2Proof.Machine

/-- In a rising list of cells the cell found at an address is the one that is there. -/
theorem lookupCell_eq_some_iff {a : Nat} {b : Byte} {cs : List Host.Cell} (h : cs.Pairwise (fun c d => c.1 < d.1)) :
    lookupCell a cs = some b ↔ (a, b) ∈ cs := by
  induction cs with
  | nil => simp [lookupCell]
  | cons c cs ih =>
    obtain ⟨hc, hcs⟩ := List.pairwise_cons.1 h
    rw [List.mem_cons, ← ih hcs, lookupCell]
    split
    · next hca =>
      have hnone : lookupCell a cs = none := lookupCell_eq_none fun d hd => by have := hc d hd; omega
      simp [hnone, Prod.ext_iff, hca, eq_comm]
    · next hca => simp [Prod.ext_iff, Ne.symm hca]

/-- A canonical memory has a cell exactly where it reads other than its reset contents. -/
theorem Memory.wf.lookupCell_eq {m : Memory} (h : m.wf) (a : Nat) :
    lookupCell a m.cells = if m.read a = m.resetByte a then none else some (m.read a) := by
  obtain ⟨hrising, hcells⟩ := h
  cases hl : lookupCell a m.cells with
  | none => simp [Memory.read, hl]
  | some b =>
    obtain ⟨-, hb⟩ := hcells _ ((lookupCell_eq_some_iff hrising).1 hl)
    simpa [Memory.read, hl] using hb

/-- Rising lists of cells in which every lookup agrees are equal. -/
theorem cells_eq_of_lookupCell {cs ds : List Host.Cell} (hcs : cs.Pairwise (fun c d => c.1 < d.1))
    (hds : ds.Pairwise (fun c d => c.1 < d.1)) (h : ∀ a, lookupCell a cs = lookupCell a ds) : cs = ds := by
  refine List.Pairwise.eq_of_mem_iff (r := InvImage (· < ·) Prod.fst) hcs hds fun c => ?_
  rw [← lookupCell_eq_some_iff hcs, h, lookupCell_eq_some_iff hds]

/-- Settles O59: a canonical memory's cells are found from its reads, and rising cells from their lookups. -/
theorem equalReadsEqualMemory : Obligations.EqualReadsEqualMemory := by
  intro m m' hm hm' hfont hread
  have hlookup : ∀ a, lookupCell a m.cells = lookupCell a m'.cells := fun a => by
    rw [hm.lookupCell_eq, hm'.lookupCell_eq, hread a, Memory.resetByte, Memory.resetByte, hfont]
  exact congrArg₂ Memory.mk hfont (cells_eq_of_lookupCell hm.1 hm'.1 hlookup)

end Sys2Proof.Machine

/-! SUPPORT. What no instruction but a few observes: the sound timer and the key latch (10_state R31, R32). -/

namespace Sys2Proof.Machine

/-- `s` with the sound timer changed by `f` and the key latch by `g`, all else the same. -/
def mapUnread (f : Byte → Byte) (g : Vector Bool 16 → Vector Bool 16) (s : State) : State :=
  { s with ST := f s.ST, keys := g s.keys }

/-- Does the instruction read the key latch (R32). -/
def readsKeys : Instr → Bool
  | .skp _ | .sknp _ | .ldVxK _ => true
  | _ => false

section
variable (f : Byte → Byte) (g : Vector Bool 16 → Vector Bool 16) (s : State)

/-! ## The shared operations -/

theorem advance_mapUnread : advance (mapUnread f g s) = mapUnread f g (advance s) := rfl

theorem skipIf_mapUnread (c : Bool) : skipIf c (mapUnread f g s) = mapUnread f g (skipIf c s) := by cases c <;> rfl

theorem clearFramebuffer_mapUnread : clearFramebuffer (mapUnread f g s) = mapUnread f g (clearFramebuffer s) := by
  unfold clearFramebuffer
  generalize List.replicate Config.fbSize 0x00#8 = bs
  rfl

theorem loadBlock_mapUnread (a m : Nat) : loadBlock a m (mapUnread f g s) = mapUnread f g (loadBlock a m s) := by
  induction m with
  | zero => rfl
  | succ m ih => simp only [loadBlock, ih]; rfl

theorem scanKeys_mapUnread (m : Nat) : scanKeys (mapUnread f id s) m = scanKeys s m := by
  induction m with
  | zero => rfl
  | succ m ih => simp only [scanKeys, ih]; rfl

/-- An instruction that ends by completing commutes with the change if the state it completes with does. -/
theorem done_mapUnread {u v : State} (h : u = mapUnread f g v) : done u = mapNext (mapUnread f g) (done v) := by
  subst h; rfl

theorem ifInBounds_mapUnread {k : State → Result} (h : k (mapUnread f g s) = mapNext (mapUnread f g) (k s))
    (a0 : Word) (m : Nat) :
    ifInBounds a0 m (mapUnread f g s) k = mapNext (mapUnread f g) (ifInBounds a0 m s k) := by
  unfold ifInBounds
  split
  · rfl
  · exact h

/-! ## The instructions -/

theorem execLdVxK_mapUnread (x : Nibble) :
    execLdVxK x (mapUnread f id s) = mapNext (mapUnread f id) (execLdVxK x s) := by
  rw [execLdVxK, execLdVxK, show lowestKey (mapUnread f id s) = lowestKey s from scanKeys_mapUnread f s 16]
  cases lowestKey s <;> rfl

theorem execLoadRegs_mapUnread (x : Nibble) :
    execLoadRegs x (mapUnread f g s) = mapNext (mapUnread f g) (execLoadRegs x s) := by
  unfold execLoadRegs
  refine ifInBounds_mapUnread f g s ?_ _ _
  refine done_mapUnread f g ?_
  rw [loadBlock_mapUnread, advance_mapUnread]
  rfl

/-- An instruction gives the same outcome from a state with another sound timer or key latch, and leaves the change there. The
change must be none of what the instruction writes (ST) or reads (the latch). -/
theorem exec_mapUnread {i : Instr} (hf : .ST ∈ writesSpecials i → f = id) (hg : readsKeys i = true → g = id) :
    exec i (mapUnread f g s) = mapNext (mapUnread f g) (exec i s) := by
  cases i with
  | sys _ | jp _ | ldImm _ _ | addImm _ _ | ldReg _ _ | orReg _ _ | andReg _ _ | xorReg _ _ | addReg _ _ | subReg _ _
  | shr _ _ | subnReg _ _ | shl _ _ | ldI _ | jpV0 _ | rnd _ _ | ldVxDT _ | ldDTVx _ | addIVx _ | ldFVx _ => rfl
  | ldSTVx _ => obtain rfl := hf (by simp [writesSpecials]); rfl
  | seImm _ _ | sneImm _ _ | seReg _ _ | sneReg _ _ => exact done_mapUnread f g (skipIf_mapUnread ..)
  | skp _ | sknp _ => obtain rfl := hg rfl; exact done_mapUnread f id (skipIf_mapUnread ..)
  | cls => exact done_mapUnread f g (by rw [clearFramebuffer_mapUnread, advance_mapUnread])
  | ret | call _ =>
    simp only [exec, execRet, execCall, apply_ite (mapNext (mapUnread f g))]
    rfl
  | drw _ _ _ | ldBVx _ | storeRegs _ =>
    simp only [exec, execDrw, execLdBVx, execStoreRegs]
    exact ifInBounds_mapUnread f g s rfl _ _
  | ldVxK x => obtain rfl := hg rfl; exact execLdVxK_mapUnread f s x
  | loadRegs x => exact execLoadRegs_mapUnread f g s x

end

/-! ## The two registers -/

theorem eq_ldSTVx_of_writes_ST {i : Instr} (h : .ST ∈ writesSpecials i) : ∃ x, i = .ldSTVx x := by
  cases i <;> simp_all [writesSpecials]

theorem eq_of_readsKeys {i : Instr} (h : readsKeys i = true) : ∃ x, i = .skp x ∨ i = .sknp x ∨ i = .ldVxK x := by
  cases i <;> simp_all [readsKeys]

/-- Settles O38: the change of ST alone, which no instruction but Fx18 writes. -/
theorem soundTimerUnobserved : Obligations.SoundTimerUnobserved := by
  intro i s b hi
  refine exec_mapUnread (fun _ => b) id s (fun h => ?_) (fun _ => rfl)
  obtain ⟨x, hx⟩ := eq_ldSTVx_of_writes_ST h
  exact absurd hx (hi x)

/-- Settles O39: the change of the key latch alone, which the three excluded instructions read. -/
theorem keysObservedByThree : Obligations.KeysObservedByThree := by
  intro i s k hi
  refine exec_mapUnread id (fun _ => k) s (fun _ => rfl) (fun h => ?_)
  obtain ⟨x, hx⟩ := eq_of_readsKeys h
  obtain ⟨hskp, hsknp, hwait⟩ := hi x
  simp [hskp, hsknp, hwait] at hx

end Sys2Proof.Machine

/-! SUPPORT. What the execute phase can do, said once for all instructions: it raises, or it polls, or it completes within the
instruction's frame (10_state R22, R27 to R32; 20_memory R60; 40_cycle R107; 60_exceptions R207). -/

namespace Sys2Proof.Machine

/-! ## The legal stack pointers (R29) -/

theorem legalSp_iff {sp : Word} : LegalSp sp ↔ ∃ d ≤ 16, sp.toNat + 2 * d = 0x6CF := by
  simp [LegalSp, Nat.lt_succ_iff]

theorem LegalSp.sub_two {sp : Word} (h : LegalSp sp) (hlimit : sp.toNat ≠ Config.stackLimit) : LegalSp (sp - 2#16) := by
  obtain ⟨d, hd, hsp⟩ := legalSp_iff.1 h
  exact legalSp_iff.2 ⟨d + 1, by simp at hlimit; omega, by bv_omega⟩

theorem LegalSp.add_two {sp : Word} (h : LegalSp sp) (htop : sp.toNat ≠ Config.stackTop) : LegalSp (sp + 2#16) := by
  obtain ⟨d, hd, hsp⟩ := legalSp_iff.1 h
  exact legalSp_iff.2 ⟨d - 1, by omega, by simp at htop; bv_omega⟩

/-! ## Frames -/

/-- An instruction's frame: what it may not write is unchanged, memory stays canonical, and `sp` stays legal. -/
structure InstrFrame (i : Instr) (s t : State) : Prop where
  regs : ∀ r, writesV i r = false → getV r t = getV r s
  specials : KeepsSpecials (writesSpecials i) s t
  mem : KeepsMemOutside (storesTo i s).1 (storesTo i s).2 s t
  wf : s.mem.wf → t.mem.wf
  sp : LegalSp s.sp → LegalSp t.sp

/-- A frame says nothing of pc and fsm, so an instruction that changes V alone beside them has its frame by V. -/
theorem InstrFrame.of_regs {i : Instr} {s t : State} (ht : t = { s with V := t.V, pc := t.pc, fsm := t.fsm })
    (hV : ∀ r, writesV i r = false → getV r t = getV r s) : InstrFrame i s t where
  regs := hV
  specials := by rw [ht]; simp [KeepsSpecials]
  mem a _ := by rw [ht]
  wf h := by rw [ht]; exact h
  sp h := by rw [ht]; exact h

/-- The same for an instruction that changes memory and V. -/
theorem InstrFrame.of_mem {i : Instr} {s t : State} (ht : t = { s with V := t.V, pc := t.pc, fsm := t.fsm, mem := t.mem })
    (hV : ∀ r, writesV i r = false → getV r t = getV r s) (hfont : t.mem.font = s.mem.font)
    (hmem : KeepsMemOutside (storesTo i s).1 (storesTo i s).2 s t) (hwf : s.mem.wf → t.mem.wf) : InstrFrame i s t where
  regs := hV
  specials := by rw [ht]; simp [KeepsSpecials, hfont]
  mem := hmem
  wf := hwf
  sp h := by rw [ht]; exact h

/-- The same for an instruction that changes one of the registers I, sp, DT, ST alone. -/
theorem InstrFrame.of_special {i : Instr} {s t : State} (hV : t.V = s.V) (hmem : t.mem = s.mem)
    (hspecials : KeepsSpecials (writesSpecials i) s t) (hsp : LegalSp s.sp → LegalSp t.sp) : InstrFrame i s t where
  regs r _ := getV_congr hV r
  specials := hspecials
  mem a _ := by rw [hmem]
  wf h := hmem ▸ h
  sp := hsp

/-! ## Faults of the execute phase -/

/-- The instruction, run from `s`, takes the fault with the record (R202 to R204, R207). -/
inductive Raises (s : State) : Instr → FaultRecord → Prop
  | ret : s.sp.toNat = Config.stackTop → Raises s .ret stackUnderflowRecord
  | call nnn : s.sp.toNat = Config.stackLimit → Raises s (.call nnn) stackOverflowRecord
  | drw x y n : outOfBounds s.I n.toNat = true → Raises s (.drw x y n) (memoryOutOfBoundsRecord s.I)
  | ldBVx x : outOfBounds s.I 3 = true → Raises s (.ldBVx x) (memoryOutOfBoundsRecord s.I)
  | storeRegs x : outOfBounds s.I (x.toNat + 1) = true → Raises s (.storeRegs x) (memoryOutOfBoundsRecord s.I)
  | loadRegs x : outOfBounds s.I (x.toNat + 1) = true → Raises s (.loadRegs x) (memoryOutOfBoundsRecord s.I)

/-- What the execute phase can answer (R107). -/
inductive ExecNext (i : Instr) (s : State) : State → Prop
  | raised {r : FaultRecord} : Raises s i r → ExecNext i s { s with fsm := .faulted, fault := r }
  | polled {x : Nibble} : i = .ldVxK x → lowestKey s = none → ExecNext i s { s with fsm := .waitingForKey }
  | completed {t : State} : t.fsm = .running → InstrFrame i s t → ExecNext i s t

section
variable {i : Instr} {s t : State}

/-! ## One lemma per way of ending -/

theorem ExecNext.of_done {u : State} (h : done u = .next t) (hu : InstrFrame i s { u with fsm := .running }) :
    ExecNext i s t := by
  rw [done_eq_next] at h
  subst h
  exact .completed rfl hu

theorem ExecNext.of_raise {r : FaultRecord} (h : raise r s = .next t) (hr : Raises s i r) : ExecNext i s t := by
  rw [raise_eq_next] at h
  subst h
  exact .raised hr

/-- An instruction that changes pc alone. -/
theorem ExecNext.of_pc {u : State} (h : done u = .next t) (hu : u = { s with pc := u.pc }) : ExecNext i s t :=
  .of_done h (.of_regs (by rw [hu]) fun r _ => by rw [hu]; rfl)

theorem ExecNext.of_skipIf {c : Bool} (h : done (skipIf c s) = .next t) : ExecNext i s t :=
  .of_pc h (by cases c <;> rfl)

theorem ExecNext.of_writeReg {x : Nibble} {b : Byte} (h : writeReg x b s = .next t)
    (hx : ∀ r, writesV i r = false → r ≠ x) : ExecNext i s t :=
  .of_done h (.of_regs rfl fun r hr => getV_setV_other s (hx r hr) b)

theorem ExecNext.of_flagThenResult {flag result : Byte → Byte → Byte} {x y : Nibble}
    (h : flagThenResult flag result x y s = .next t) (hx : ∀ r, writesV i r = false → r ≠ x ∧ r ≠ VF) : ExecNext i s t := by
  obtain ⟨u, hu, hfsm, -, hV, honly⟩ := flagThenResult_spec flag result x y s
  obtain rfl : u = t := by simpa [hu] using h
  exact .completed hfsm (.of_regs honly fun r hr => by rw [hV, if_neg (hx r hr).1, if_neg (hx r hr).2])

theorem ExecNext.of_ifInBounds {a0 : Word} {m : Nat} {k : State → Result} (h : ifInBounds a0 m s k = .next t)
    (hraise : outOfBounds a0 m = true → Raises s i (memoryOutOfBoundsRecord a0))
    (hrun : k s = .next t → ExecNext i s t) : ExecNext i s t := by
  obtain ⟨-, e⟩ | ⟨hout, e⟩ := ifInBounds_cases a0 m s k
  · exact hrun (e ▸ h)
  · exact .of_raise (e ▸ h) (hraise hout)

/-- An instruction that stores a run of bytes, the one it is listed to store to, and changes pc beside it. -/
theorem ExecNext.of_writeBytes {a : Nat} {bs : List Byte}
    (h : done (advance { s with mem := s.mem.writeBytes a bs }) = .next t)
    (hstores : storesTo i s = (a, bs.length)) : ExecNext i s t := by
  refine .of_done h (.of_mem rfl (fun _ _ => rfl) (s.mem.writeBytes_font a bs) (fun b hb => ?_)
    fun hwf => Memory.wf_writeBytes hwf a bs)
  rw [hstores] at hb
  exact s.mem.read_writeBytes_outside a b bs hb

/-! ## The instructions with a way of their own -/

theorem execCls_next (h : execCls s = .next t) : ExecNext .cls s t := by
  unfold execCls clearFramebuffer at h
  exact .of_writeBytes h (by rw [List.length_replicate]; rfl)

theorem execRet_next (h : execRet s = .next t) : ExecNext .ret s t := by
  unfold execRet at h
  split at h
  · next htop => exact .of_raise h (.ret htop)
  · next htop =>
    split at h
    · exact .of_done h (.of_special rfl rfl (by simp [KeepsSpecials, writesSpecials]) (·.add_two htop))
    · exact absurd h (by simp)

theorem execCall_next {nnn : Addr12} (h : execCall nnn s = .next t) : ExecNext (.call nnn) s t := by
  unfold execCall at h
  split at h
  · next hlimit => exact .of_raise h (.call nnn hlimit)
  · next hlimit =>
    split at h
    · refine .of_done h ⟨fun _ _ => rfl, by simp [KeepsSpecials, writesSpecials], fun b hb => ?_, (push_wf · _),
        (·.sub_two hlimit)⟩
      exact Memory.read_writeBytes_outside _ _ _ _ hb
    · exact absurd h (by simp)

theorem execDrw_next {x y n : Nibble} (h : execDrw x y n s = .next t) : ExecNext (.drw x y n) s t := by
  refine .of_ifInBounds h (.drw x y n) fun h => ?_
  refine .of_done h (.of_mem rfl (fun r hr => getV_setV_other _ (by simpa [writesV] using hr) _) ?_ (fun b hb => ?_)
    fun hwf => drawRows_wf _ _ _ _ hwf)
  · exact drawRows_font ..
  · exact read_drawRows_outside (Nat.mod_lt _ (by decide)) _ _ _ _ hb

theorem execLdVxK_next {x : Nibble} (h : execLdVxK x s = .next t) : ExecNext (.ldVxK x) s t := by
  unfold execLdVxK at h
  split at h
  · exact .of_writeReg h (by simp [writesV])
  · next hnone =>
    rw [poll_eq_next] at h
    subst h
    exact .polled rfl hnone

theorem execLdBVx_next {x : Nibble} (h : execLdBVx x s = .next t) : ExecNext (.ldBVx x) s t :=
  .of_ifInBounds h (.ldBVx x) fun h => .of_writeBytes h rfl

theorem execStoreRegs_next {x : Nibble} (h : execStoreRegs x s = .next t) : ExecNext (.storeRegs x) s t :=
  .of_ifInBounds h (.storeRegs x) fun h => .of_writeBytes h (by rw [length_firstRegs (by omega)]; rfl)

theorem execLoadRegs_next {x : Nibble} (h : execLoadRegs x s = .next t) : ExecNext (.loadRegs x) s t := by
  refine .of_ifInBounds h (.loadRegs x) fun h => .of_done h (.of_regs ?_ fun r hr => ?_)
  · rw [loadBlock_V_only]; rfl
  · have hr : ¬ r.toNat < x.toNat + 1 := by simp [writesV] at hr; omega
    show getV r (loadBlock _ _ s) = _
    rw [getV_loadBlock _ (by omega), if_neg hr]

/-- What the execute phase can do: raise, poll, or complete within the instruction's frame. -/
theorem exec_next (h : exec i s = .next t) : ExecNext i s t := by
  cases i with
  | cls => exact execCls_next h
  | ret => exact execRet_next h
  | call nnn => exact execCall_next h
  | sys _ | jp _ | jpV0 _ => exact .of_pc h rfl
  | seImm _ _ | sneImm _ _ | seReg _ _ | sneReg _ _ | skp _ | sknp _ => exact .of_skipIf h
  | ldImm _ _ | addImm _ _ | ldReg _ _ | orReg _ _ | andReg _ _ | xorReg _ _ | ldVxDT _ =>
    exact .of_writeReg h (by simp [writesV])
  | addReg _ _ | subReg _ _ | shr _ _ | subnReg _ _ | shl _ _ =>
    simp only [exec] at h
    exact .of_flagThenResult h (by simp [writesV])
  | ldI _ | addIVx _ | ldFVx _ | ldDTVx _ | ldSTVx _ =>
    exact .of_done h (.of_special rfl rfl (by simp [KeepsSpecials, writesSpecials]) id)
  | rnd x kk =>
    exact .of_done h ⟨fun r hr => getV_setV_other _ (by simpa [writesV] using hr) _,
      by simp [KeepsSpecials, writesSpecials, drawRnd], fun _ _ => rfl, id, id⟩
  | drw x y n => exact execDrw_next h
  | ldVxK x => exact execLdVxK_next h
  | ldBVx x => exact execLdBVx_next h
  | storeRegs x => exact execStoreRegs_next h
  | loadRegs x => exact execLoadRegs_next h

end

/-- Settles O37: where the execute phase does not raise, it polls, which changes fsm only, or stays in its frame. -/
theorem instructionFrames : Obligations.InstructionFrames := by
  intro i s t h hf
  cases exec_next h with
  | raised _ => exact absurd rfl hf
  | polled _ _ => exact ⟨fun _ _ => rfl, by simp [KeepsSpecials], fun _ _ => rfl⟩
  | completed _ frame => exact ⟨frame.regs, frame.specials, frame.mem⟩

end Sys2Proof.Machine

/-! SUPPORT. The invariant of a run, part by part: where each holds at reset, at a fault, and after an instruction that
completes or polls (10_state R29, R33 to R35; 60_exceptions R211 to R214). -/

namespace Sys2Proof.Machine

/-! ## The fault record (R34, R211, R212) -/

theorem KeepsSpecials.fault_eq {l : List Special} {s t : State} (h : KeepsSpecials l s t) : t.fault = s.fault := by
  obtain ⟨-, -, -, -, -, -, hfault, -⟩ := h
  exact hfault

/-- Outside Faulted the record is clear. -/
theorem FaultExplained.fault_clear {s : State} (h : FaultExplained s) (hf : s.fsm ≠ .faulted) : s.fault = .clear := by
  obtain ⟨hlatched, hclear, -⟩ := h
  exact hclear (by simpa using mt hlatched.2 hf)

theorem faultExplained_of_clear {s : State} (hf : s.fsm ≠ .faulted) (h : s.fault = .clear) : FaultExplained s := by
  simp [FaultExplained, h, hf, FaultRecord.clear]

/-- A fetch that leaves memory explains its record (R204). -/
theorem faultExplained_memoryOutOfBounds {s : State} (hout : outOfBounds s.pc 2 = true) :
    FaultExplained { s with fsm := .faulted, fault := memoryOutOfBoundsRecord s.pc } := by
  simp [FaultExplained, memoryOutOfBoundsRecord, hout]

/-- A fetched word that does not decode explains its record (R201). -/
theorem faultExplained_invalidOpcode {s : State} (hin : outOfBounds s.pc 2 = false) (hd : decodeWord (fetchWord s) = none) :
    FaultExplained { s with fsm := .faulted, fault := invalidOpcodeRecord (fetchWord s) s.pc } := by
  rw [fetchWord] at hd
  simp [FaultExplained, invalidOpcodeRecord, fetchWord, hin, hd]

/-- The record of each fault of the execute phase says why it was taken. -/
theorem Raises.faultExplained {i : Instr} {s : State} {r : FaultRecord} (h : Raises s i r) :
    FaultExplained { s with fsm := .faulted, fault := r } := by
  have widen {m : Nat} (hm : m ≤ 16) (hout : outOfBounds s.I m = true) : outOfBounds s.I 16 = true := by
    rw [outOfBounds_iff] at hout ⊢
    omega
  cases h with
  | ret htop => simp [FaultExplained, stackUnderflowRecord, htop]
  | call _ hlimit => simp [FaultExplained, stackOverflowRecord, hlimit]
  | drw _ _ n hout => simp [FaultExplained, memoryOutOfBoundsRecord, widen (by omega) hout]
  | ldBVx _ hout => simp [FaultExplained, memoryOutOfBoundsRecord, widen (by omega) hout]
  | storeRegs x hout | loadRegs x hout => simp [FaultExplained, memoryOutOfBoundsRecord, widen (by omega) hout]

/-! ## Parts of the invariant carried over a step -/

/-- A fault that its record explains keeps the invariant, as it changes nothing else (R211). -/
theorem State.Inv.faulted {s : State} (h : s.Inv) {r : FaultRecord}
    (hr : FaultExplained { s with fsm := .faulted, fault := r }) : State.Inv { s with fsm := .faulted, fault := r } := by
  obtain ⟨hwf, hsp, -, -⟩ := h
  exact ⟨hwf, hsp, hr, fun hw => absurd hw (by simp)⟩

/-- The execute phase keeps the invariant where the word at `pc` is the instruction that runs. -/
theorem exec_inv {i : Instr} {s t : State} (hs : s.Inv) (hf : s.fsm ≠ .faulted) (ho : outOfBounds s.pc 2 = false)
    (hd : decodeWord (fetchWord s) = some i) (h : exec i s = .next t) : t.Inv := by
  have ⟨hwf, hsp, hfault, _⟩ := hs
  have hclear := hfault.fault_clear hf
  cases exec_next h with
  | raised hr => exact hs.faulted hr.faultExplained
  | polled hi _ =>
    refine ⟨hwf, hsp, faultExplained_of_clear (by simp) hclear, fun _ => ⟨ho, ?_⟩⟩
    subst hi
    exact hd ▸ rfl
  | completed hrun frame =>
    have hfault' : t.fault = .clear := frame.specials.fault_eq.trans hclear
    exact ⟨frame.wf hwf, frame.sp hsp, faultExplained_of_clear (by simp [hrun]) hfault', fun hw => absurd hw (by simp [hrun])⟩

/-- The invariant does not speak of the timers. -/
theorem tick_inv {t : State} (h : t.Inv) : (tick t).Inv := h

theorem tickIfCoupled_inv {t : State} (h : t.Inv) : (tickIfCoupled t).Inv := by
  obtain e | ⟨e, -⟩ := tickIfCoupled_cases t <;> rw [e]
  · exact h
  · exact tick_inv h

/-- Settles O48, along the four ways of a step. -/
theorem stepKeepsInvariant : Obligations.StepKeepsInvariant := by
  intro s t hs h
  obtain ⟨-, e⟩ | ⟨-, hout, e⟩ | ⟨-, hin, hd, e⟩ | ⟨i, hf, hin, hd, e⟩ := step_cases s <;> rw [e] at h
  · cases h
    exact hs
  · rw [raise_eq_next] at h
    subst h
    exact hs.faulted (faultExplained_memoryOutOfBounds hout)
  · rw [raise_eq_next] at h
    subst h
    exact hs.faulted (faultExplained_invalidOpcode hin hd)
  · obtain ⟨u, hu, rfl⟩ := finish_eq_next.1 h
    exact tickIfCoupled_inv (exec_inv hs hf hin hd hu)

/-! ## Reset -/

theorem resetWith_inv (font : Font) (tc : Bool) (d : Nat) : (State.resetWith font tc d).Inv :=
  ⟨reset_memory_wf font, legalSp_iff.2 ⟨0, by decide, rfl⟩, faultExplained_of_clear (by simp [State.resetWith]) rfl,
    fun h => absurd h (by simp [State.resetWith])⟩

/-- Settles O47: the reset states of both clauses, and the first session's core, are all `State.resetWith`. -/
theorem invariantHoldsAtReset : Obligations.InvariantHoldsAtReset :=
  ⟨fun font tc d => ⟨resetWith_inv font tc d, rfl, rfl⟩, ⟨resetWith_inv .., rfl, rfl⟩, ⟨resetWith_inv .., fun _ => rfl⟩, rfl⟩

end Sys2Proof.Machine

/-! SUPPORT. Every instruction answers from a legal stack pointer (10_state R29, 20_memory R72). -/

namespace Sys2Proof.Machine

/-! ## The stack bytes of a legal sp exist -/

theorem LegalSp.pushInMemory {sp : Word} (h : LegalSp sp) : pushInMemory sp = true := by
  obtain ⟨d, hd, hsp⟩ := legalSp_iff.1 h
  exact pushInMemory_iff.2 (by omega)

theorem LegalSp.popInMemory {sp : Word} (h : LegalSp sp) : popInMemory sp = true := by
  obtain ⟨d, hd, hsp⟩ := legalSp_iff.1 h
  exact popInMemory_iff.2 (by omega)

/-! ## Answers -/

/-- The bounds check answers: with a fault, or with what the instruction it guards answers. -/
theorem ifInBounds_answers {s : State} {k : State → Result} (hk : ∃ t, k s = .next t) (a0 : Word) (m : Nat) :
    ∃ t, ifInBounds a0 m s k = .next t := by
  obtain ⟨-, e⟩ | ⟨-, e⟩ := ifInBounds_cases a0 m s k <;> rw [e]
  · exact hk
  · exact ⟨_, rfl⟩

theorem execRet_answers {s : State} (hsp : LegalSp s.sp) : ∃ t, execRet s = .next t := by
  rw [execRet, if_pos hsp.popInMemory]
  split <;> exact ⟨_, rfl⟩

theorem execCall_answers {s : State} (hsp : LegalSp s.sp) (nnn : Addr12) : ∃ t, execCall nnn s = .next t := by
  rw [execCall, if_pos hsp.pushInMemory]
  split <;> exact ⟨_, rfl⟩

theorem execLdVxK_answers (x : Nibble) (s : State) : ∃ t, execLdVxK x s = .next t := by
  unfold execLdVxK
  split <;> exact ⟨_, rfl⟩

/-- Only RET and CALL can stop, and they do not at a legal sp. -/
theorem exec_answers (i : Instr) {s : State} (hsp : LegalSp s.sp) : ∃ t, exec i s = .next t := by
  cases i with
  | ret => exact execRet_answers hsp
  | call nnn => exact execCall_answers hsp nnn
  | ldVxK x => exact execLdVxK_answers x s
  | drw _ _ _ | ldBVx _ | storeRegs _ | loadRegs _ =>
    simp only [exec, execDrw, execLdBVx, execStoreRegs, execLoadRegs]
    refine ifInBounds_answers ?_ _ _
    exact ⟨_, rfl⟩
  | cls | sys _ | jp _ | seImm _ _ | sneImm _ _ | seReg _ _ | ldImm _ _ | addImm _ _ | ldReg _ _ | orReg _ _ | andReg _ _
  | xorReg _ _ | addReg _ _ | subReg _ _ | shr _ _ | subnReg _ _ | shl _ _ | sneReg _ _ | ldI _ | jpV0 _ | rnd _ _ | skp _
  | sknp _ | ldVxDT _ | ldDTVx _ | ldSTVx _ | addIVx _ | ldFVx _ => exact ⟨_, rfl⟩

theorem step_answers {s : State} (hsp : LegalSp s.sp) : ∃ t, step s = .next t := by
  obtain ⟨-, e⟩ | ⟨-, -, e⟩ | ⟨-, -, -, e⟩ | ⟨i, -, -, -, e⟩ := step_cases s <;> rw [e]
  · exact ⟨_, rfl⟩
  · exact ⟨_, rfl⟩
  · exact ⟨_, rfl⟩
  · obtain ⟨u, hu⟩ := exec_answers i hsp
    exact ⟨_, finish_eq_next.2 ⟨u, hu, rfl⟩⟩

/-- Settles O49: of the invariant a step needs the legal sp alone. -/
theorem stepAlwaysAnswers : Obligations.StepAlwaysAnswers :=
  ⟨fun i _ hsp => exec_answers i hsp, fun _ ⟨_, hsp, _, _⟩ => step_answers hsp⟩

end Sys2Proof.Machine

/-! SUPPORT. Data accesses that leave memory (20_memory R63 to R65; 60_exceptions R204, R211). -/

namespace Sys2Proof.Machine

/-- A guarded instruction whose access leaves memory takes the fault in the state it started from, with `max(I, 0x1000)`. -/
theorem ifInBounds_fault {s : State} {m : Nat} (h0 : 0 < m) (h : 4096 < s.I.toNat + m) (k : State → Result) :
    ifInBounds s.I m s k = .next { s with
      fsm := .faulted,
      fault := ⟨.memoryOutOfBounds, 0x0000#16, 0x0000#16, if s.I.toNat < 0x1000 then 0x1000#16 else s.I⟩ } := by
  rw [ifInBounds_raise h0 h, memoryOutOfBoundsRecord_eq]
  rfl

/-- Settles O35: each of the four instructions is its bounds check before anything else. -/
theorem memoryBoundsFaults : Obligations.MemoryBoundsFaults := by
  intro x y n s
  simp only [exec, execDrw, execLdBVx, execStoreRegs, execLoadRegs]
  refine ⟨fun hn hout => ?_, fun hout => ?_, fun hout => ⟨?_, ?_⟩⟩
  · exact ifInBounds_fault hn (by omega) _
  · exact ifInBounds_fault (by omega) (by omega) _
  · exact ifInBounds_fault (by omega) (by omega) _
  · exact ifInBounds_fault (by omega) (by omega) _

end Sys2Proof.Machine

/-! SUPPORT. The draw in pixel terms, for sprites apart from the framebuffer (45_family_D R171 to R173). -/

namespace Sys2Proof.Machine

/-- The bit of a sprite row `b` with its left end at pixel column `xpos` that lands on pixel column `px`, wrapping. -/
def rowBit (xpos : Nat) (b : Byte) (px : Nat) : Bool :=
  decide ((px + 64 - xpos) % 64 < 8) && b.getLsbD (7 - (px + 64 - xpos) % 64)

section
variable {xpos px : Nat}

/-! ## One row: the left part, the right part, and no other byte-column -/

theorem getLsbD_leftPart (hx : xpos < 64) (hcol : px / 8 = xpos / 8) (b : Byte) :
    (b >>> (xpos % 8)).getLsbD (7 - px % 8) = rowBit xpos b px := by
  rw [BitVec.getLsbD_ushiftRight, rowBit]
  by_cases hc : xpos % 8 ≤ px % 8
  · rw [show (px + 64 - xpos) % 64 = px % 8 - xpos % 8 by omega,
      show 7 - (px % 8 - xpos % 8) = xpos % 8 + (7 - px % 8) by omega]
    simp [show px % 8 - xpos % 8 < 8 by omega]
  · rw [BitVec.getLsbD_of_ge _ _ (by omega), decide_eq_false (by omega), Bool.false_and]

theorem getLsbD_rightPart (hx : xpos < 64) (hpx : px < 64) (hcol : px / 8 = (xpos / 8 + 1) % 8) (b : Byte) :
    (b <<< (8 - xpos % 8)).getLsbD (7 - px % 8) = (decide (xpos % 8 ≠ 0) && rowBit xpos b px) := by
  have hc : (px + 64 - xpos) % 64 = 8 + px % 8 - xpos % 8 := by omega
  rw [BitVec.getLsbD_shiftLeft, rowBit, hc]
  by_cases hlt : px % 8 < xpos % 8
  · rw [show 7 - px % 8 - (8 - xpos % 8) = 7 - (8 + px % 8 - xpos % 8) by omega]
    simp [show 7 - px % 8 < 8 by omega, show ¬ 7 - px % 8 < 8 - xpos % 8 by omega,
      show 8 + px % 8 - xpos % 8 < 8 by omega, show ¬ xpos % 8 = 0 by omega]
  · simp [show 7 - px % 8 < 8 - xpos % 8 by omega, show ¬ 8 + px % 8 - xpos % 8 < 8 by omega]

theorem rowBit_elsewhere (hx : xpos < 64) (hpx : px < 64) (hleft : px / 8 ≠ xpos / 8)
    (hright : px / 8 = (xpos / 8 + 1) % 8 → xpos % 8 = 0) (b : Byte) : rowBit xpos b px = false := by
  rw [rowBit, decide_eq_false (by omega), Bool.false_and]

/-- Drawing one row XORs its bits into the pixels of its pixel row. -/
theorem pixelLit_drawRow {row py : Nat} (hx : xpos < 64) (hrow : row < 32) (hpx : px < 64) (b : Byte) (d : Draw) :
    pixelLit (drawRow xpos row b d).mem px py = (pixelLit d.mem px py ^^ (decide (py = row) && rowBit xpos b px)) := by
  unfold pixelLit
  have hcol : px / 8 < 8 := by omega
  simp only [read_drawRow hx hrow, fbAddr_inj hcol (show xpos / 8 < 8 by omega), fbAddr_inj hcol (Nat.mod_lt _ (by decide))]
  by_cases hpy : py = row
  · by_cases hleft : px / 8 = xpos / 8
    · rw [if_pos ⟨hpy, hleft⟩, BitVec.getLsbD_xor, getLsbD_leftPart hx hleft]
      simp [hpy]
    · rw [if_neg fun h => hleft h.2]
      by_cases hright : px / 8 = (xpos / 8 + 1) % 8 ∧ xpos % 8 ≠ 0
      · obtain ⟨hcol, hs⟩ := hright
        rw [if_pos ⟨⟨hpy, hcol⟩, hs⟩, BitVec.getLsbD_xor, getLsbD_rightPart hx hpx hcol]
        simp [hpy, hs]
      · rw [if_neg fun h => hright ⟨h.1.2, h.2⟩, rowBit_elsewhere hx hpx hleft (by simpa using hright)]
        simp
  · simp [hpy]

/-! ## The rows of a sprite -/

theorem spriteBit_zero (s : State) (xpos ypos px py : Nat) : spriteBit s xpos ypos 0 px py = false := by
  simp [spriteBit]

/-- A sprite of one row more adds that row's bits to the pixel row it lands on. -/
theorem spriteBit_succ (s : State) {xpos ypos n px py : Nat} (hn : n < 32) (hy : ypos < 32) (hpy : py < 32) :
    spriteBit s xpos ypos (n + 1) px py =
      (spriteBit s xpos ypos n px py ^^
        (decide (py = (ypos + n) % 32) && rowBit xpos (s.mem.read (s.I.toNat + n)) px)) := by
  have hrow : py = (ypos + n) % 32 ↔ (py + 32 - ypos) % 32 = n := by omega
  simp only [spriteBit, rowBit, hrow]
  generalize (py + 32 - ypos) % 32 = r
  by_cases hr : r = n
  · subst hr; simp
  · simp [hr, show r < n + 1 ↔ r < n by omega]

/-- A draw XORs the sprite's bits into the pixels. -/
theorem pixelLit_drawRows {s : State} {ypos n py : Nat} (hapart : SpriteApart s n) (hn : n ≤ 32) (hx : xpos < 64)
    (hy : ypos < 32) (hpx : px < 64) (hpy : py < 32) (c : Bool) :
    pixelLit (drawRows s.I.toNat xpos ypos n ⟨s.mem, c⟩).mem px py =
      (pixelLit s.mem px py ^^ spriteBit s xpos ypos n px py) := by
  induction n with
  | zero => simp [drawRows, spriteBit_zero]
  | succ n ih =>
    have hbyte : (drawRows s.I.toNat xpos ypos n ⟨s.mem, c⟩).mem.read (s.I.toNat + n) = s.mem.read (s.I.toNat + n) :=
      read_drawRows_outside hx _ _ _ _ (hapart n n.lt_succ_self).2
    rw [drawRows_succ, pixelLit_drawRow hx (Nat.mod_lt _ (by omega)) hpx, hbyte,
      ih (fun r hr => hapart r (by omega)) (by omega), spriteBit_succ s (by omega) hy hpy, Bool.xor_assoc]

end

/-- A sprite apart from the framebuffer is in memory. -/
theorem SpriteApart.inBounds {s : State} {n : Nat} (h : SpriteApart s n) : n = 0 ∨ s.I.toNat + n ≤ 4096 := by
  cases n with
  | zero => exact .inl rfl
  | succ n =>
    obtain ⟨hmem, -⟩ := h n n.lt_succ_self
    exact .inr (by omega)

/-- A framebuffer byte is determined by its eight pixels (R171). -/
theorem read_fbAddr_eq {m : Memory} {py col : Nat} {b : Byte}
    (h : ∀ j, j < 8 → b.getLsbD (7 - j) = pixelLit m (8 * col + j) py) : m.read (fbAddr py col) = b := by
  refine BitVec.eq_of_getLsbD_eq fun i hi => ?_
  have := h (7 - i) (by omega)
  rw [show 7 - (7 - i) = i by omega] at this
  rw [this, pixelLit, show (8 * col + (7 - i)) / 8 = col by omega, show 7 - (8 * col + (7 - i)) % 8 = i by omega]

end Sys2Proof.Machine

/-! SUPPORT. The bytes each storing instruction leaves, and that the next fetch reads them (20_memory R70). -/

namespace Sys2Proof.Machine

/-! ## Fetching a byte of memory -/

/-- Fetch reads memory, so it reads a stored byte at once, and after a tick too. -/
theorem fetchesByte_of_read {t u : State} (hu : u = t ∨ u = tick t) {a : Nat} {b : Byte} (h : t.mem.read a = b) :
    FetchesByte u a b := by
  have hmem : u.mem.read a = b := by
    obtain rfl | rfl := hu <;> exact h
  constructor <;> intro hpc <;> simp [fetchWord, hpc, hmem]

/-! ## What each instruction stores -/

section
variable (x y n : Nibble) (nnn : Addr12) (s : State)

theorem storeRegs_stores (h : s.I.toNat + x.toNat ≤ 0xFFF) :
    ∃ t, exec (.storeRegs x) s = .next t ∧
      ∀ r : Nibble, r.toNat ≤ x.toNat → t.mem.read (s.I.toNat + r.toNat) = getV r s := by
  simp only [exec, execStoreRegs, ifInBounds_run (.inr (show s.I.toNat + (x.toNat + 1) ≤ 4096 by omega))]
  refine ⟨_, rfl, fun r hr => ?_⟩
  have hlen : (firstRegs (x.toNat + 1) s).length = x.toNat + 1 := length_firstRegs (by omega) s
  have hbyte := s.mem.read_writeBytes_inside s.I.toNat r.toNat (firstRegs (x.toNat + 1) s) (by omega) (by omega)
  rwa [getElem_firstRegs, BitVec.ofNat_toNat, BitVec.setWidth_eq] at hbyte

theorem ldBVx_stores (h : s.I.toNat + 2 ≤ 0xFFF) :
    ∃ t, exec (.ldBVx x) s = .next t ∧
      t.mem.read s.I.toNat = BitVec.ofNat 8 ((getV x s).toNat / 100) ∧
      t.mem.read (s.I.toNat + 1) = BitVec.ofNat 8 ((getV x s).toNat / 10 % 10) ∧
      t.mem.read (s.I.toNat + 2) = BitVec.ofNat 8 ((getV x s).toNat % 10) := by
  simp only [exec, execLdBVx, ifInBounds_run (.inr (show s.I.toNat + 3 ≤ 4096 by omega))]
  have hin (j : Nat) (hj : j < 3) :=
    s.mem.read_writeBytes_inside s.I.toNat j (bcdDigits (getV x s)) hj (by rw [length_bcdDigits]; omega)
  exact ⟨_, rfl, hin 0 (by omega), hin 1 (by omega), hin 2 (by omega)⟩

theorem cls_stores :
    ∃ t, exec .cls s = .next t ∧ ∀ a, 0x700 ≤ a → a ≤ 0x7FF → t.mem.read a = 0x00#8 := by
  refine ⟨{ advance (clearFramebuffer s) with fsm := .running }, rfl, fun a hlo hhi => ?_⟩
  rw [advance_mem, read_clearFramebuffer_inside s ⟨hlo, by omega⟩]

theorem call_stores (hlimit : s.sp.toNat ≠ 0x6AF) (hpush : pushInMemory s.sp = true) :
    ∃ t, exec (.call nnn) s = .next t ∧
      t.mem.read (s.sp.toNat - 1) = highByte (s.pc + 2#16) ∧ t.mem.read s.sp.toNat = lowByte (s.pc + 2#16) := by
  refine ⟨{ jump (zextAddr nnn) (push (s.pc + 2#16) s) with fsm := .running }, ?_, ?_, ?_⟩
  · show execCall nnn s = _
    rw [execCall, if_neg hlimit, if_pos hpush]
    rfl
  · exact (read_push hpush _ _).trans (if_pos rfl)
  · have hne : s.sp.toNat ≠ s.sp.toNat - 1 := by
      have := pushInMemory_iff.1 hpush
      omega
    exact (read_push hpush _ _).trans ((if_neg hne).trans (if_pos rfl))

/-- Each framebuffer byte after a draw is the one whose pixels are the old ones XOR the sprite's bits. -/
theorem drw_stores (hapart : SpriteApart s n.toNat) :
    ∃ t, exec (.drw x y n) s = .next t ∧ ∀ py col, py < 32 → col < 8 → ∀ b : Byte,
      (∀ j, j < 8 → b.getLsbD (7 - j) = (pixelLit s.mem (8 * col + j) py ^^
        spriteBit s ((getV x s).toNat % 64) ((getV y s).toNat % 32) n.toNat (8 * col + j) py)) →
      t.mem.read (fbAddr py col) = b := by
  simp only [exec, execDrw, ifInBounds_run hapart.inBounds]
  refine ⟨_, rfl, fun py col hpy hcol b hb => read_fbAddr_eq fun j hj => ?_⟩
  rw [hb j hj]
  exact (pixelLit_drawRows hapart (by omega) (Nat.mod_lt _ (by omega)) (Nat.mod_lt _ (by omega)) (by omega) hpy false).symm

end

/-- Settles O34: each stored byte is in the memory the instruction leaves, which is what fetch reads. -/
theorem storeThenFetch : Obligations.StoreThenFetch := by
  intro x y n nnn s
  refine ⟨fun h => ?_, fun h => ?_, ?_, fun hlimit hlo hhi => ?_, fun hapart => ?_⟩
  · obtain ⟨t, ht, hread⟩ := storeRegs_stores x s h
    exact ⟨t, ht, fun u hu r hr => fetchesByte_of_read hu (hread r hr)⟩
  · obtain ⟨t, ht, h0, h1, h2⟩ := ldBVx_stores x s h
    exact ⟨t, ht, fun u hu => ⟨fetchesByte_of_read hu h0, fetchesByte_of_read hu h1, fetchesByte_of_read hu h2⟩⟩
  · obtain ⟨t, ht, hread⟩ := cls_stores s
    exact ⟨t, ht, fun u hu a hlo hhi => fetchesByte_of_read hu (hread a hlo hhi)⟩
  · obtain ⟨t, ht, hhigh, hlow⟩ := call_stores nnn s hlimit (pushInMemory_iff.2 ⟨hlo, by omega⟩)
    exact ⟨t, ht, fun u hu => ⟨fetchesByte_of_read hu hhigh, fetchesByte_of_read hu hlow⟩⟩
  · obtain ⟨t, ht, hread⟩ := drw_stores x y n s hapart
    exact ⟨t, ht, fun u hu py col hpy hcol b hb => fetchesByte_of_read hu (hread py col hpy hcol b hb)⟩

end Sys2Proof.Machine

/-! SUPPORT. The decoder and the encoder are inverse on well-formed instructions (30_encoding R81, R82, R84). -/

namespace Sys2Proof

/-! ## Words and their fields -/

theorem formatNNN_of_fieldOp {op : Nibble} {w : Word} (hop : fieldOp w = op) : formatNNN op (fieldNNN w) = w := by
  rw [← hop, formatNNN_fields]

theorem formatXKK_of_fieldOp {op : Nibble} {w : Word} (hop : fieldOp w = op) :
    formatXKK op (fieldX w) (fieldKK w) = w := by
  rw [← hop, formatXKK_fields]

theorem formatXYN_of_fieldOp {op : Nibble} {w : Word} (hop : fieldOp w = op) :
    formatXYN op (fieldX w) (fieldY w) (fieldN w) = w := by
  rw [← hop, formatXYN_fields]

theorem nibble_mem_all (n : Nibble) :
    n ∈ [0x0#4, 0x1#4, 0x2#4, 0x3#4, 0x4#4, 0x5#4, 0x6#4, 0x7#4,
      0x8#4, 0x9#4, 0xA#4, 0xB#4, 0xC#4, 0xD#4, 0xE#4, 0xF#4] := by
  revert n; decide

/-! ## Decode after encode -/

/-- The two words that R84 takes from 0nnn have an ill-formed `nnn`. -/
theorem decodeFamily0_formatNNN {nnn : Addr12} (h : (Instr.sys nnn).wellFormed = true) :
    decodeFamily0 (formatNNN 0x0#4 nnn) = .sys nnn := by
  obtain ⟨hcls, hret⟩ : nnn ≠ 0x0E0#12 ∧ nnn ≠ 0x0EE#12 := by simpa [Instr.wellFormed] using h
  have hfield {a : Addr12} {w : Word} (hw : formatNNN 0x0#4 nnn = w) (ha : fieldNNN w = a) : nnn = a := by
    rw [← ha, ← hw, fieldNNN_formatNNN]
  rw [decodeFamily0, if_neg fun hw => hcls (hfield hw rfl), if_neg fun hw => hret (hfield hw rfl), fieldNNN_formatNNN]

/-- By the row of each instruction: its format gives back the fields, and they select the arm of the decoder. -/
theorem decodeWord_encode {i : Instr} (h : i.wellFormed = true) : decodeWord (encode i) = some i := by
  cases i with
  | cls | ret => rfl
  | sys nnn => simp [encode, decodeWord, decodeFamily0_formatNNN h]
  | jp _ | call _ | seImm _ _ | sneImm _ _ | seReg _ _ | ldImm _ _ | addImm _ _ | sneReg _ _ | ldI _ | jpV0 _
  | rnd _ _ | drw _ _ _ => simp [encode, decodeWord]
  | ldReg _ _ | orReg _ _ | andReg _ _ | xorReg _ _ | addReg _ _ | subReg _ _ | shr _ _ | subnReg _ _ | shl _ _ =>
    simp [encode, decodeWord, decodeFamily8]
  | skp _ | sknp _ => simp [encode, decodeWord, decodeFamilyE]
  | ldVxDT _ | ldVxK _ | ldDTVx _ | ldSTVx _ | addIVx _ | ldFVx _ | ldBVx _ | storeRegs _ | loadRegs _ =>
    simp [encode, decodeWord, decodeFamilyF]

theorem decode_encodeBytes_append {i : Instr} (h : i.wellFormed = true) (rest : List Byte) :
    decode (encodeBytes i ++ rest) = .ok (i, rest) := by
  rw [encodeBytes, List.cons_append, List.cons_append, List.nil_append, decode_two, joinBytes_bytes, decodeWord_encode h]

/-- Settles O1: at the word by the instruction's row, at the bytes because they join to that word. -/
theorem decodeEncodeRoundTrip : Obligations.DecodeEncodeRoundTrip := fun _ rest h =>
  ⟨decodeWord_encode h, decode_encodeBytes_append h rest⟩

/-! ## Encode after decode -/

/-- `i` is a well-formed instruction of the word `w`. -/
def Instr.StandsFor (i : Instr) (w : Word) : Prop := i.wellFormed = true ∧ encode i = w

theorem decodeFamily0_standsFor {w : Word} (hop : fieldOp w = 0x0#4) : (decodeFamily0 w).StandsFor w := by
  unfold decodeFamily0
  split
  · next hw => exact ⟨rfl, hw.symm⟩
  split
  · next hw => exact ⟨rfl, hw.symm⟩
  · next hcls hret =>
    have hnnn {v : Word} (hne : w ≠ v) (hv : fieldOp v = 0x0#4) : fieldNNN w ≠ fieldNNN v := fun h =>
      hne (by rw [← formatNNN_of_fieldOp hop, h, formatNNN_of_fieldOp hv])
    exact ⟨Bool.and_eq_true_iff.2 ⟨bne_iff_ne.2 (hnnn hcls rfl), bne_iff_ne.2 (hnnn hret rfl)⟩, formatNNN_of_fieldOp hop⟩

theorem decodeFamily8_standsFor {x y n : Nibble} {i : Instr} (h : decodeFamily8 x y n = some i) :
    i.StandsFor (formatXYN 0x8#4 x y n) := by
  unfold decodeFamily8 at h
  split at h <;> cases h <;> exact ⟨rfl, rfl⟩

theorem decodeFamilyE_standsFor {x : Nibble} {kk : Byte} {i : Instr} (h : decodeFamilyE x kk = some i) :
    i.StandsFor (formatXKK 0xE#4 x kk) := by
  unfold decodeFamilyE at h
  split at h <;> cases h <;> exact ⟨rfl, rfl⟩

theorem decodeFamilyF_standsFor {x : Nibble} {kk : Byte} {i : Instr} (h : decodeFamilyF x kk = some i) :
    i.StandsFor (formatXKK 0xF#4 x kk) := by
  unfold decodeFamilyF at h
  split at h <;> cases h <;> exact ⟨rfl, rfl⟩

/-- Settles O2: by the family of the word, whose format puts its fields together again. -/
theorem encodeDecodeRoundTrip : Obligations.EncodeDecodeRoundTrip := by
  intro w i h
  unfold decodeWord at h
  split at h
  case h_1 hop => cases h; exact decodeFamily0_standsFor hop
  case h_2 hop | h_3 hop | h_11 hop | h_12 hop => cases h; exact ⟨rfl, formatNNN_of_fieldOp hop⟩
  case h_4 hop | h_5 hop | h_7 hop | h_8 hop | h_13 hop => cases h; exact ⟨rfl, formatXKK_of_fieldOp hop⟩
  case h_6 hop | h_10 hop =>
    split at h <;> cases h
    next hn => exact ⟨rfl, (congrArg _ hn.symm).trans (formatXYN_of_fieldOp hop)⟩
  case h_9 hop => exact formatXYN_of_fieldOp hop ▸ decodeFamily8_standsFor h
  case h_14 hop => cases h; exact ⟨rfl, formatXYN_of_fieldOp hop⟩
  case h_15 hop => exact formatXKK_of_fieldOp hop ▸ decodeFamilyE_standsFor h
  case h_16 hop => exact formatXKK_of_fieldOp hop ▸ decodeFamilyF_standsFor h
  case h_17 => cases h

end Sys2Proof

/-! SUPPORT. The words that do not decode, family by family (30_encoding R89, R90). -/

namespace Sys2Proof

theorem decodeFamily8_eq_none_iff {x y n : Nibble} :
    decodeFamily8 x y n = none ↔ n ∈ [0x8#4, 0x9#4, 0xA#4, 0xB#4, 0xC#4, 0xD#4, 0xF#4] := by
  unfold decodeFamily8
  split
  case h_10 => simp only [true_iff]; revert n; decide
  all_goals simp

theorem decodeFamilyE_eq_none_iff {x : Nibble} {kk : Byte} : decodeFamilyE x kk = none ↔ kk ∉ [0x9E#8, 0xA1#8] := by
  unfold decodeFamilyE
  split <;> simp_all

theorem decodeFamilyF_eq_none_iff {x : Nibble} {kk : Byte} :
    decodeFamilyF x kk = none ↔ kk ∉ [0x07#8, 0x0A#8, 0x15#8, 0x18#8, 0x1E#8, 0x29#8, 0x33#8, 0x55#8, 0x65#8] := by
  unfold decodeFamilyF
  split <;> simp_all

/-- Settles O4: families 5 and 9 refuse by their test of `n`, families 8, E and F by their own tables, the others never. -/
theorem illegalWords : Obligations.IllegalWords := by
  intro w
  unfold decodeWord
  split
  case h_6 hop | h_10 hop => simp [hop]
  case h_9 hop => simp [hop, decodeFamily8_eq_none_iff]
  case h_15 hop => simp [hop, decodeFamilyE_eq_none_iff]
  case h_16 hop => simp [hop, decodeFamilyF_eq_none_iff]
  case h_17 => exact absurd (nibble_mem_all (fieldOp w)) (by simp_all)
  all_goals next hop => simp [hop]

/-- Settles O5: the decoder runs on each of the listed words. -/
theorem sampleWordsDecode : Obligations.SampleWordsDecode := by
  unfold Obligations.SampleWordsDecode
  decide

end Sys2Proof

/-! SUPPORT. The rows of the opcode map as the decoder splits them: in every family but 0, all rows have one mask
(30_encoding R83, R84, R86). -/

namespace Sys2Proof

/-! ## A word under a mask -/

theorem fieldOp_and (v w : Word) : fieldOp (v &&& w) = fieldOp v &&& fieldOp w := BitVec.extractLsb'_and

theorem and_maskNNN (w : Word) : w &&& 0xF000#16 = formatNNN (fieldOp w) 0x000#12 := by
  apply BitVec.eq_of_getLsbD_eq; intro i h
  simp only [formatNNN, fieldOp, BitVec.getLsbD_and, BitVec.getLsbD_append, BitVec.getLsbD_extractLsb']
  interval_cases i <;> simp

theorem and_maskXYN (w : Word) : w &&& 0xF00F#16 = formatXYN (fieldOp w) 0x0#4 0x0#4 (fieldN w) := by
  apply BitVec.eq_of_getLsbD_eq; intro i h
  simp only [formatXYN, fieldOp, fieldN, BitVec.getLsbD_and]
  rw [BitVec.getLsbD_append, BitVec.getLsbD_append, BitVec.getLsbD_append]
  simp only [BitVec.getLsbD_extractLsb']
  interval_cases i <;> simp

theorem and_maskXFF (w : Word) : w &&& 0xF0FF#16 = formatXKK (fieldOp w) 0x0#4 (fieldKK w) := by
  apply BitVec.eq_of_getLsbD_eq; intro i h
  simp only [formatXKK, fieldOp, fieldKK, BitVec.getLsbD_and]
  rw [BitVec.getLsbD_append, BitVec.getLsbD_append]
  simp only [BitVec.getLsbD_extractLsb']
  interval_cases i <;> simp

/-- The bits that tell the rows of a family other than 0 apart (R83). -/
def familyMask : Nibble → Word
  | 0x5#4 | 0x8#4 | 0x9#4 => 0xF00F#16
  | 0xE#4 | 0xF#4 => 0xF0FF#16
  | _ => 0xF000#16

theorem mask_of_mem_opcodeMap : ∀ r ∈ opcodeMap, fieldOp r.value ≠ 0x0#4 → r.mask = familyMask (fieldOp r.value) := by
  decide

theorem fieldOp_mask_of_mem_opcodeMap : ∀ r ∈ opcodeMap, fieldOp r.mask = BitVec.allOnes 4 := by
  decide

theorem fieldOp_familyMask : ∀ op, fieldOp (familyMask op) = BitVec.allOnes 4 := by
  decide

/-- A row of another family has another selector in its value, and no mask hides the selector. -/
theorem find?_selects {w : Word} (hop : fieldOp w ≠ 0x0#4) :
    opcodeMap.find? (fun r => r.selects w) = opcodeMap.find? (fun r => w &&& familyMask (fieldOp w) == r.value) := by
  refine List.find?_congr fun r hr => ?_
  by_cases hfam : fieldOp r.value = fieldOp w
  · rw [OpcodeRow.selects, mask_of_mem_opcodeMap r hr (hfam ▸ hop), hfam]
  · have hne {m : Word} (hm : fieldOp m = BitVec.allOnes 4) : (w &&& m == r.value) = false := beq_eq_false_iff_ne.2 fun h =>
      hfam (by rw [← h, fieldOp_and, hm, BitVec.and_allOnes])
    rw [OpcodeRow.selects, hne (fieldOp_mask_of_mem_opcodeMap r hr), hne (fieldOp_familyMask _)]

/-! ## The decoder's row -/

/-- The mnemonic of the row with the value `v`. -/
def mnemonicOfValue (v : Word) : Option String := (opcodeMap.find? (fun r => v == r.value)).map OpcodeRow.mnemonic

theorem decodeWord_value_ne_none : ∀ r ∈ opcodeMap, decodeWord r.value ≠ none := by decide

theorem mnemonicOfValue_eq_none {v : Word} (h : decodeWord v = none) : mnemonicOfValue v = none := by
  have hrow : ∀ r ∈ opcodeMap, v ≠ r.value := fun r hr hv => decodeWord_value_ne_none r hr (hv ▸ h)
  simpa [mnemonicOfValue] using hrow

/-- Outside family 0 the row that a word selects has the value of the word under its family's mask. -/
theorem mnemonic_selected {w v : Word} {op : Nibble} (hop : fieldOp w = op) (h0 : op ≠ 0x0#4)
    (hv : w &&& familyMask op = v) :
    (opcodeMap.find? (fun r => r.selects w)).map OpcodeRow.mnemonic = mnemonicOfValue v := by
  rw [find?_selects (hop ▸ h0), hop, hv, mnemonicOfValue]

theorem decodeFamily0_mnemonic {w : Word} (hop : fieldOp w = 0x0#4) :
    some (decodeFamily0 w).mnemonic = (opcodeMap.find? (fun r => r.selects w)).map OpcodeRow.mnemonic := by
  unfold decodeFamily0
  split
  · next hw => subst hw; rfl
  split
  · next hw => subst hw; rfl
  · next hcls hret =>
    have hfixed {v : Word} (hne : w ≠ v) : (w &&& 0xFFFF#16 == v) = false := by
      rw [show 0xFFFF#16 = BitVec.allOnes 16 from rfl, BitVec.and_allOnes, beq_eq_false_iff_ne.2 hne]
    have hsys : (w &&& 0xF000#16 == 0x0000#16) = true := by rw [and_maskNNN, hop]; rfl
    simp [opcodeMap, opcodeMapLow, OpcodeRow.selects, hfixed hcls, hfixed hret, hsys, Instr.mnemonic]

theorem decodeFamily8_mnemonic (x y n : Nibble) :
    (decodeFamily8 x y n).map Instr.mnemonic = mnemonicOfValue (formatXYN 0x8#4 0x0#4 0x0#4 n) := by
  unfold decodeFamily8
  split
  case h_10 => rw [mnemonicOfValue_eq_none (by simp [decodeWord, decodeFamily8, *]), Option.map_none]
  all_goals rfl

theorem decodeFamilyE_mnemonic (x : Nibble) (kk : Byte) :
    (decodeFamilyE x kk).map Instr.mnemonic = mnemonicOfValue (formatXKK 0xE#4 0x0#4 kk) := by
  unfold decodeFamilyE
  split
  case h_3 => rw [mnemonicOfValue_eq_none (by simp [decodeWord, decodeFamilyE, *]), Option.map_none]
  all_goals rfl

theorem decodeFamilyF_mnemonic (x : Nibble) (kk : Byte) :
    (decodeFamilyF x kk).map Instr.mnemonic = mnemonicOfValue (formatXKK 0xF#4 0x0#4 kk) := by
  unfold decodeFamilyF
  split
  case h_10 => rw [mnemonicOfValue_eq_none (by simp [decodeWord, decodeFamilyF, *]), Option.map_none]
  all_goals rfl

/-- By the family of the word: its mask leaves the bits that the decoder splits the family by. -/
theorem decodeWord_mnemonic (w : Word) :
    (decodeWord w).map Instr.mnemonic = (opcodeMap.find? (fun r => r.selects w)).map OpcodeRow.mnemonic := by
  unfold decodeWord
  split
  case h_1 hop => exact decodeFamily0_mnemonic hop
  case h_6 hop | h_10 hop =>
    rw [mnemonic_selected hop (by decide) (and_maskXYN w), hop]
    split
    · next hn => rw [hn]; rfl
    · next hn => rw [mnemonicOfValue_eq_none (by simp [decodeWord, hn]), Option.map_none]
  case h_9 hop => rw [mnemonic_selected hop (by decide) (and_maskXYN w), hop, decodeFamily8_mnemonic]
  case h_15 hop => rw [mnemonic_selected hop (by decide) (and_maskXFF w), hop, decodeFamilyE_mnemonic]
  case h_16 hop => rw [mnemonic_selected hop (by decide) (and_maskXFF w), hop, decodeFamilyF_mnemonic]
  case h_17 => exact absurd (nibble_mem_all (fieldOp w)) (by simp_all)
  all_goals next hop => rw [mnemonic_selected hop (by decide) (and_maskNNN w), hop]; rfl

/-! ## Rows that select one word -/

/-- Two rows in the map's order have no word in common, but for a fixed row before 0nnn. -/
abbrev OpcodeRow.ApartFrom (r r' : OpcodeRow) : Prop :=
  r.value &&& r'.mask = r'.value &&& r.mask →
    r.mask = BitVec.allOnes 16 ∧ (r.value = 0x00E0#16 ∨ r.value = 0x00EE#16) ∧ r'.mnemonic = "SYS_nnn"

theorem opcodeMap_pairwise_apartFrom : opcodeMap.Pairwise OpcodeRow.ApartFrom := by decide

/-- If both rows select `w`, it is one of the two fixed words and one row is 0nnn (R84). -/
def OverlapAllowed (w : Word) (r r' : OpcodeRow) : Prop :=
  r.selects w = true → r'.selects w = true →
    (w = 0x00E0#16 ∨ w = 0x00EE#16) ∧ (r.mnemonic = "SYS_nnn" ∨ r'.mnemonic = "SYS_nnn")

theorem overlapAllowed_symm (w : Word) : Std.Symm (OverlapAllowed w) :=
  ⟨fun _ _ h hr hr' => (h hr' hr).imp_right Or.symm⟩

/-- What two rows select they both fix on the bits that both test. -/
theorem OpcodeRow.ApartFrom.overlapAllowed {r r' : OpcodeRow} (h : r.ApartFrom r') (w : Word) : OverlapAllowed w r r' := by
  intro hr hr'
  have hv : w &&& r.mask = r.value := eq_of_beq hr
  have hv' : w &&& r'.mask = r'.value := eq_of_beq hr'
  obtain ⟨hmask, hvalue, hsys⟩ := h (by rw [← hv, ← hv']; ac_rfl)
  rw [hmask, BitVec.and_allOnes] at hv
  exact ⟨hv ▸ hvalue, .inr hsys⟩

/-- Settles O3: a word's row by its family, and the overlap of rows by comparing each two of the map. -/
theorem decodeFollowsOpcodeMap : Obligations.DecodeFollowsOpcodeMap := by
  refine ⟨decodeWord_mnemonic, fun w r r' hr hr' hne => ?_⟩
  have hsymm := overlapAllowed_symm w
  exact (opcodeMap_pairwise_apartFrom.imp (·.overlapAllowed w)).forall hr hr' hne

end Sys2Proof

/-! SUPPORT. The step in each of its cases, and the end of a completing step (40_cycle R101 to R108). -/

namespace Sys2Proof.Machine

/-! ## The fetch's bounds (R103) -/

theorem fetch_inBounds_iff {s : State} : outOfBounds s.pc 2 = false ↔ s.pc.toNat + 1 ≤ 0xFFF := by
  rw [outOfBounds_eq_false_iff]; omega

theorem fetch_outOfBounds_iff {s : State} : outOfBounds s.pc 2 = true ↔ 0xFFF < s.pc.toNat + 1 := by
  rw [outOfBounds_iff]; omega

/-! ## One equation per case of the step -/

section
variable {s : State}

theorem step_faulted (h : s.fsm = .faulted) : step s = .next s := if_pos h

theorem step_fetch_outOfBounds (hf : s.fsm ≠ .faulted) (hout : outOfBounds s.pc 2 = true) :
    step s = raise (memoryOutOfBoundsRecord s.pc) s := by
  simp [step, cycle, hf, hout]

theorem step_decoded (hf : s.fsm ≠ .faulted) (hin : outOfBounds s.pc 2 = false) {i : Instr}
    (hd : decodeWord (fetchWord s) = some i) : step s = finish (exec i s) := by
  simp [step, cycle, hf, hin, hd]

end

/-! ## The coupled tick of a completing step (R108) -/

theorem finish_eq_mapNext (r : Result) : finish r = mapNext tickIfCoupled r := by cases r <;> rfl

/-- Only a completing step ticks. -/
theorem tickIfCoupled_of_not_running {t : State} (h : t.fsm ≠ .running) : tickIfCoupled t = t := if_neg fun h' => h h'.1

@[simp] theorem getV_tickIfCoupled (x : Nibble) (t : State) : getV x (tickIfCoupled t) = getV x t := by
  obtain e | ⟨e, -⟩ := tickIfCoupled_cases t <;> rw [e]
  rfl

/-- The coupled tick writes the two timers only. -/
theorem tickIfCoupled_timers_only (t : State) :
    tickIfCoupled t = { t with DT := (tickIfCoupled t).DT, ST := (tickIfCoupled t).ST } := by
  obtain e | ⟨e, -⟩ := tickIfCoupled_cases t <;> rw [e]
  rfl

/-- At the end of a completing step each timer is one less, floor 0, if TIMER_COUPLED, and as it was if not. -/
theorem toNat_timers_tickIfCoupled {t : State} (hrun : t.fsm = .running) :
    (tickIfCoupled t).DT.toNat = t.DT.toNat - (if t.timerCoupled = true then 1 else 0) ∧
      (tickIfCoupled t).ST.toNat = t.ST.toNat - (if t.timerCoupled = true then 1 else 0) := by
  unfold tickIfCoupled
  by_cases hc : t.timerCoupled = true
  · simp [hrun, hc, toNat_countDown]
  · simp [hc]

/-- Settles O40: the step is the execute phase and then the coupled tick. -/
theorem stepRunsDecodedInstruction : Obligations.StepRunsDecodedInstruction := fun s i hf hpc hd =>
  (step_decoded hf (fetch_inBounds_iff.2 hpc) hd).trans (finish_eq_mapNext (exec i s))

/-- Settles O41: of the program counters whose fetch leaves memory, 0xFFF alone is below 0x1000. -/
theorem fetchBeyondMemoryFaults : Obligations.FetchBeyondMemoryFaults := by
  intro s hf hpc
  have haddr : s.pc.toNat < 0x1000 ↔ s.pc.toNat = 0xFFF := by omega
  rw [step_fetch_outOfBounds hf (fetch_outOfBounds_iff.2 hpc), memoryOutOfBoundsRecord_eq]
  simp only [raise, haddr]

/-- Settles O46: each of the three instructions completes, and the tick comes after what it wrote. -/
theorem timerWriteThenTick : Obligations.TimerWriteThenTick := by
  intro s x hf hpc
  have hstep {i : Instr} (hd : decodeWord (fetchWord s) = some i) := step_decoded hf (fetch_inBounds_iff.2 hpc) hd
  refine ⟨fun hd => ⟨_, hstep hd, ?_⟩, fun hd => ⟨_, hstep hd, ?_⟩, fun hd => ⟨_, hstep hd, ?_, ?_⟩⟩
  · exact toNat_timers_tickIfCoupled rfl
  · exact (toNat_timers_tickIfCoupled rfl).symm
  · rw [getV_tickIfCoupled]
    exact getV_setV_same s x s.DT
  · exact toNat_timers_tickIfCoupled rfl

end Sys2Proof.Machine

/-! SUPPORT. The reply of the transaction `step` (40_cycle R109). -/

namespace Sys2Proof.Machine

/-- The transaction `step` answers exactly where the step does, with the reply for the core the step leaves. -/
theorem transact_step_eq_next {q q' : Session} {r : Reply} :
    transact .step q = .next (r, q') ↔ ∃ t, step q.core = .next t ∧ r = stepReply t ∧ q' = .used t := by
  rw [transact, transactStep]
  cases step q.core <;> simp [eq_comm]

theorem stepReply_faulted {t : State} (h : t.fsm = .faulted) : stepReply t = .err t.fault := if_pos h

theorem stepReply_not_faulted {t : State} (h : t.fsm ≠ .faulted) : stepReply t = .ok := if_neg h

/-- Settles O43: the step is inert, so the reply is that of the old core. -/
theorem faultedIsInert : Obligations.FaultedIsInert := fun q hf =>
  ⟨step_faulted hf, .used q.core,
    transact_step_eq_next.2 ⟨q.core, step_faulted hf, (stepReply_faulted hf).symm, rfl⟩, rfl⟩

/-- Settles O58: the reply is that of the core left, which from Faulted is the old core. -/
theorem stepReplies : Obligations.StepReplies := by
  intro q q' r h
  obtain ⟨t, ht, rfl, rfl⟩ := transact_step_eq_next.1 h
  refine ⟨ht, stepReply_not_faulted, stepReply_faulted, fun hf => ?_⟩
  obtain rfl : q.core = t := by simpa [step_faulted hf] using ht
  exact stepReply_faulted hf

end Sys2Proof.Machine

/-! SUPPORT. The kinds of step (40_cycle R107). -/

namespace Sys2Proof.Machine

theorem isKeyWait_iff {o : Option Instr} : isKeyWait o = true ↔ ∃ x, o = some (.ldVxK x) := by
  unfold isKeyWait
  split <;> simp_all

/-- A step that fetches Fx0A while no key is pressed is a poll, which does not tick (R186). -/
theorem step_polls {s : State} (hf : s.fsm ≠ .faulted) (hwait : FetchesKeyWait s) (hkeys : ∀ k : Nibble, getKey k s = false) :
    step s = .next { s with fsm := .waitingForKey } := by
  obtain ⟨hin, hkw⟩ := hwait
  obtain ⟨x, hd⟩ := isKeyWait_iff.1 hkw
  have hexec : exec (.ldVxK x) s = poll s := by simp only [exec, execLdVxK, lowestKey_none.2 hkeys]
  rw [step_decoded hf hin hd, hexec, poll, finish, tickIfCoupled_of_not_running (by simp)]

/-- Every fault latches a record of some kind. -/
theorem Raises.kind_ne_none {s : State} {i : Instr} {r : FaultRecord} (h : Raises s i r) : r.kind ≠ .none := by
  cases h <;> exact FaultKind.noConfusion

/-- The execute phase with its tick completes or faults, but where it polls. -/
theorem finish_exec_cases {s t : State} {i : Instr} (h : finish (exec i s) = .next t) :
    t.fsm = .running ∨ (∃ r : FaultRecord, t = { s with fsm := .faulted, fault := r } ∧ r.kind ≠ .none) ∨
      ((∃ x, i = .ldVxK x) ∧ lowestKey s = none) := by
  obtain ⟨u, hu, rfl⟩ := finish_eq_next.1 h
  cases exec_next hu with
  | completed hrun _ => exact .inl ((tickIfCoupled_fsm u).trans hrun)
  | raised hr => exact .inr (.inl ⟨_, tickIfCoupled_of_not_running (by simp), hr.kind_ne_none⟩)
  | polled hi hnone => exact .inr (.inr ⟨⟨_, hi⟩, hnone⟩)

/-- Settles O44, along the four ways of a step. -/
theorem stepClassification : Obligations.StepClassification := by
  refine ⟨fun _ => step_faulted, fun _ => step_polls, fun s t hf hnopoll h => ?_⟩
  have faulted {r : FaultRecord} (ht : t = { s with fsm := .faulted, fault := r }) (hr : r.kind ≠ .none) :
      t = { s with fsm := .faulted, fault := t.fault } ∧ t.fault.kind ≠ .none := by subst ht; exact ⟨rfl, hr⟩
  obtain ⟨hf', -⟩ | ⟨-, -, e⟩ | ⟨-, -, -, e⟩ | ⟨i, -, hin, hd, e⟩ := step_cases s
  · exact absurd hf' hf
  · exact .inr (faulted (raise_eq_next.1 (e ▸ h)) FaultKind.noConfusion)
  · exact .inr (faulted (raise_eq_next.1 (e ▸ h)) FaultKind.noConfusion)
  · obtain hrun | ⟨r, ht, hr⟩ | ⟨⟨x, rfl⟩, hnone⟩ := finish_exec_cases (e ▸ h)
    · exact .inl hrun
    · exact .inr (faulted ht hr)
    · exact absurd ⟨⟨hin, isKeyWait_iff.2 ⟨x, hd⟩⟩, lowestKey_none.1 hnone⟩ hnopoll

end Sys2Proof.Machine

/-! SUPPORT. No instruction reads the FSM state (40_cycle R110). -/

namespace Sys2Proof.Machine

section
variable (f : Fsm) (s : State)

theorem skipIf_withFsm (c : Bool) : skipIf c { s with fsm := f } = { skipIf c s with fsm := f } := by cases c <;> rfl

theorem scanKeys_withFsm (m : Nat) : scanKeys { s with fsm := f } m = scanKeys s m := by
  induction m with
  | zero => rfl
  | succ m ih => simp only [scanKeys, ih]; rfl

theorem loadBlock_withFsm (a m : Nat) : loadBlock a m { s with fsm := f } = { loadBlock a m s with fsm := f } := by
  induction m with
  | zero => rfl
  | succ m ih => simp only [loadBlock, ih]; rfl

/-- A completing instruction writes the FSM state. -/
theorem done_withFsm {u v : State} (h : u = { v with fsm := f }) : done u = done v := by subst h; rfl

theorem ifInBounds_withFsm {k : State → Result} (h : k { s with fsm := f } = k s) (a0 : Word) (m : Nat) :
    ifInBounds a0 m { s with fsm := f } k = ifInBounds a0 m s k := by
  unfold ifInBounds
  split
  · rfl
  · exact h

theorem execCls_withFsm : execCls { s with fsm := f } = execCls s := by
  refine done_withFsm f ?_
  unfold clearFramebuffer
  generalize List.replicate Config.fbSize 0x00#8 = bs
  rfl

theorem execLdVxK_withFsm (x : Nibble) : execLdVxK x { s with fsm := f } = execLdVxK x s := by
  rw [execLdVxK, execLdVxK, lowestKey, scanKeys_withFsm, ← lowestKey]
  cases lowestKey s <;> rfl

theorem execLoadRegs_withFsm (x : Nibble) : execLoadRegs x { s with fsm := f } = execLoadRegs x s := by
  unfold execLoadRegs
  refine ifInBounds_withFsm f s ?_ _ _
  refine done_withFsm f ?_
  rw [loadBlock_withFsm]
  rfl

/-- Every way an instruction ends writes the FSM state, and none reads it. -/
theorem exec_withFsm (i : Instr) : exec i { s with fsm := f } = exec i s := by
  cases i with
  | sys _ | jp _ | ldImm _ _ | addImm _ _ | ldReg _ _ | orReg _ _ | andReg _ _ | xorReg _ _ | addReg _ _ | subReg _ _
  | shr _ _ | subnReg _ _ | shl _ _ | ldI _ | jpV0 _ | rnd _ _ | ldVxDT _ | ldDTVx _ | ldSTVx _ | addIVx _ | ldFVx _ => rfl
  | ret | call _ => rfl
  | seImm _ _ | sneImm _ _ | seReg _ _ | sneReg _ _ | skp _ | sknp _ => exact done_withFsm f (skipIf_withFsm ..)
  | cls => exact execCls_withFsm f s
  | drw _ _ _ | ldBVx _ | storeRegs _ =>
    simp only [exec, execDrw, execLdBVx, execStoreRegs]
    exact ifInBounds_withFsm f s rfl _ _
  | ldVxK x => exact execLdVxK_withFsm f s x
  | loadRegs x => exact execLoadRegs_withFsm f s x

end

/-- From any FSM state but Faulted a step is the one from Running. -/
theorem step_withFsm {f : Fsm} (hf : f ≠ .faulted) (s : State) :
    step { s with fsm := f } = step { s with fsm := .running } := by
  simp only [step, cycle, exec_withFsm, hf]
  rfl

/-- Settles O45: WaitingForKey is not Faulted. -/
theorem waitingStepsLikeRunning : Obligations.WaitingStepsLikeRunning := step_withFsm (by decide)

end Sys2Proof.Machine

/-! SUPPORT. The self-jump as a word, and that a step does not leave the end of a run (40_cycle R112). -/

namespace Sys2Proof.Machine

/-! ## The word of a jump -/

theorem toNat_formatNNN (op : Nibble) (nnn : Addr12) : (formatNNN op nnn).toNat = 0x1000 * op.toNat + nnn.toNat := by
  rw [formatNNN, BitVec.toNat_append, ← Nat.shiftLeft_add_eq_or_of_lt nnn.isLt, Nat.shiftLeft_eq, Nat.mul_comm]

theorem decodeWord_eq_jp_iff {w : Word} {nnn : Addr12} : decodeWord w = some (.jp nnn) ↔ w.toNat = 0x1000 + nnn.toNat := by
  have hword : w = encode (.jp nnn) ↔ w.toNat = 0x1000 + nnn.toNat := by
    rw [← BitVec.toNat_inj, encode, toNat_formatNNN]
    rfl
  rw [← hword]
  constructor
  · intro h
    exact (encodeDecodeRoundTrip w _ h).2.symm
  · rintro rfl
    exact decodeWord_encode rfl

/-- At a self-jump the fetch is in memory and its word is 0x1000 + pc. -/
theorem atSelfJump_iff_word {s : State} :
    atSelfJump s = true ↔ s.pc.toNat + 1 ≤ 0xFFF ∧ (fetchWord s).toNat = 0x1000 + s.pc.toNat := by
  rw [atSelfJump_iff, fetch_inBounds_iff, decodeWord_eq_jp_iff]
  refine and_congr_right fun hpc => ?_
  rw [BitVec.toNat_setWidth, Nat.mod_eq_of_lt (by omega)]

/-! ## The step at a self-jump -/

theorem zextAddr_setWidth {w : Word} (h : w.toNat < 0x1000) : zextAddr (w.setWidth 12) = w := by
  rw [zextAddr]; bv_omega

/-- Whether a state stands at a self-jump is a matter of pc and memory. -/
theorem atSelfJump_congr {s t : State} (hpc : t.pc = s.pc) (hmem : t.mem = s.mem) : atSelfJump t = atSelfJump s := by
  simp only [atSelfJump, fetchWord, hpc, hmem]

/-- The jump leaves pc where it is, so the step only completes. -/
theorem step_selfJump {s : State} (hf : s.fsm ≠ .faulted) (h : atSelfJump s = true) :
    step s = .next (tickIfCoupled { s with fsm := .running }) := by
  obtain ⟨hpc, -⟩ := atSelfJump_iff_word.1 h
  rw [step_atSelfJump hf h, exec, execJp, jump, zextAddr_setWidth (by omega)]
  rfl

/-- Settles O60: Faulted is inert, and a self-jump changes fsm and, by the tick, the timers. -/
theorem runEndIsStable : Obligations.RunEndIsStable := by
  intro s
  refine ⟨by rw [runEnded_iff, atSelfJump_iff_word], fun hend => ?_⟩
  by_cases hf : s.fsm = .faulted
  · exact ⟨s, step_faulted hf, hend, rfl, fun _ => rfl, fun hf' => absurd hf hf'⟩
  · have hjump : atSelfJump s = true := (runEnded_iff.1 hend).resolve_left hf
    have honly := tickIfCoupled_timers_only { s with fsm := .running }
    refine ⟨_, step_selfJump hf hjump, runEnded_iff.2 (.inr ?_), ?_, fun hf' => absurd hf' hf, fun _ => ⟨?_, ?_⟩⟩
    · rw [atSelfJump_congr (congrArg State.pc honly) (congrArg State.mem honly)]
      exact hjump
    · rw [tickIfCoupled_fsm]
      exact honly
    · exact tickIfCoupled_fsm _
    · exact toNat_timers_tickIfCoupled rfl

end Sys2Proof.Machine

/-! SUPPORT. What an instruction that completes leaves unchanged, in the terms of the statements, and families 0, 1, A and B
(41_family_0_1_2 R120, R122, R123; 44_family_9_to_C R161, R162). -/

namespace Sys2Proof.Machine

/-! ## The frame of an instruction that completes -/

section
variable {i : Instr} {s t : State}

theorem exec_frame (h : exec i s = .next t) (hrun : t.fsm = .running) {regs : List Nibble}
    (hregs : ∀ r, r ∉ regs → writesV i r = false) : Frame regs (writesSpecials i) s t := by
  obtain ⟨hV, hspecials, -⟩ := instructionFrames i s t h (by simp [hrun])
  exact ⟨fun r hr => hV r (hregs r hr), hspecials⟩

theorem exec_keepsMemOutside (h : exec i s = .next t) (hrun : t.fsm = .running) :
    KeepsMemOutside (storesTo i s).1 (storesTo i s).2 s t := by
  obtain ⟨-, -, hmem⟩ := instructionFrames i s t h (by simp [hrun])
  exact hmem

theorem exec_keepsMem (h : exec i s = .next t) (hrun : t.fsm = .running) (hstores : (storesTo i s).2 = 0) :
    KeepsMem s t :=
  fun a => exec_keepsMemOutside h hrun a (by omega)

end

/-! ## The clear -/

theorem clearFramebuffer_pc (s : State) : (clearFramebuffer s).pc = s.pc := by simp only [clearFramebuffer]

theorem cls_completes {s t : State} (h : exec .cls s = .next t) : t.fsm = .running ∧ t.pc = s.pc + 2#16 := by
  obtain rfl := done_eq_next.1 h
  exact ⟨rfl, by rw [advance_pc, clearFramebuffer_pc]⟩

/-! ## Jumps and the index load -/

@[simp] theorem toNat_zextAddr (nnn : Addr12) : (zextAddr nnn).toNat = nnn.toNat :=
  BitVec.toNat_setWidth_of_le (by decide)

@[simp] theorem toNat_zextByte (b : Byte) : (zextByte b).toNat = b.toNat :=
  BitVec.toNat_setWidth_of_le (by decide)

/-- The sum of a byte and a 12-bit address does not wrap in 16 bits (R162). -/
theorem toNat_zextByte_add_zextAddr (b : Byte) (nnn : Addr12) :
    (zextByte b + zextAddr nnn).toNat = b.toNat + nnn.toNat := by
  rw [BitVec.toNat_add_of_lt, toNat_zextByte, toNat_zextAddr]
  rw [toNat_zextByte, toNat_zextAddr]
  omega

/-- Outside Faulted the fetch alone decides: `pc` above 0xFFE takes MemoryOutOfBounds, before or after a tick. -/
theorem nextFetchLeaves_of_running {t : State} (hrun : t.fsm = .running) : NextFetchLeaves t := by
  intro hpc u hu
  obtain ⟨hupc, hufsm⟩ : u.pc = t.pc ∧ u.fsm = t.fsm := by
    obtain rfl | rfl := hu <;> exact ⟨rfl, rfl⟩
  refine ⟨_, fetchBeyondMemoryFaults u (by simp [hufsm, hrun]) (by rw [hupc]; omega), rfl, fun h => ?_⟩
  simp [hupc, h]

/-- What an instruction that changes pc alone does: jumps, and skips too (10_state R24). -/
theorem done_setPc (w : Word) (s : State) :
    ∃ t, done { s with pc := w } = .next t ∧ t.fsm = .running ∧ t.pc = w ∧ NextFetchLeaves t ∧ KeepsMem s t ∧
      Frame [] [] s t :=
  ⟨{ s with pc := w, fsm := .running }, rfl, rfl, rfl, nextFetchLeaves_of_running rfl, fun _ => rfl, fun _ _ => rfl,
    by simp [KeepsSpecials]⟩

/-- SYS and JP are one jump (R122, R123). -/
theorem jump_zextAddr_completes (nnn : Addr12) (s : State) :
    ∃ t, done (jump (zextAddr nnn) s) = .next t ∧ t.fsm = .running ∧ t.pc.toNat = nnn.toNat ∧ NextFetchLeaves t ∧
      KeepsMem s t ∧ Frame [] [] s t := by
  obtain ⟨t, ht, hrun, hpc, hframe⟩ := done_setPc (zextAddr nnn) s
  exact ⟨t, ht, hrun, by rw [hpc, toNat_zextAddr], hframe⟩

theorem jpV0_completes (nnn : Addr12) (s : State) :
    ∃ t, exec (.jpV0 nnn) s = .next t ∧ t.fsm = .running ∧ t.pc.toNat = (getV 0x0#4 s).toNat + nnn.toNat ∧
      t.pc.toNat ≤ 0x10FE ∧ NextFetchLeaves t ∧ KeepsMem s t ∧ Frame [] [] s t := by
  obtain ⟨t, ht, hrun, hpc, hframe⟩ := done_setPc (zextByte (getV 0x0#4 s) + zextAddr nnn) s
  have hsum : t.pc.toNat = (getV 0x0#4 s).toNat + nnn.toNat := by rw [hpc, toNat_zextByte_add_zextAddr]
  exact ⟨t, ht, hrun, hsum, by omega, hframe⟩

/-- A write of the index register completes with that value (R161, R189, R190). -/
theorem writeIndex_eq (v : Word) (s : State) : writeIndex v s = .next { advance { s with I := v } with fsm := .running } := rfl

theorem ldI_completes (nnn : Addr12) (s : State) :
    ∃ t, exec (.ldI nnn) s = .next t ∧ t.fsm = .running ∧ t.pc = s.pc + 2#16 ∧ t.I.toNat = nnn.toNat ∧
      KeepsMem s t ∧ Frame [] [.I] s t := by
  have h : exec (.ldI nnn) s = .next _ := writeIndex_eq (zextAddr nnn) s
  exact ⟨_, h, rfl, rfl, toNat_zextAddr nnn, exec_keepsMem h rfl rfl, exec_frame h rfl fun _ _ => rfl⟩

/-! ## The obligations -/

/-- Settles O9: the bytes by what CLS stores, the frame by what it may write. -/
theorem clsClearsFramebuffer : Obligations.ClsClearsFramebuffer := by
  refine ⟨decodeWord_encode (i := .cls) rfl, fun s => ?_⟩
  obtain ⟨t, ht, hclear⟩ := cls_stores s
  obtain ⟨hrun, hpc⟩ := cls_completes ht
  exact ⟨t, ht, hrun, hpc, hclear, exec_keepsMemOutside ht hrun, exec_frame ht hrun fun _ _ => rfl⟩

/-- Settles O13: the words decode as encodings do, the three jumps change pc alone, LD I writes I. -/
theorem jumpsAndIndexLoad : Obligations.JumpsAndIndexLoad := by
  intro nnn s
  obtain ⟨t, ht, hrun, hpc, hleaves, hmem, hframe⟩ := jump_zextAddr_completes nnn s
  exact ⟨⟨t, ht, hrun, hpc, hmem, hframe⟩,
    fun hcls hret => decodeWord_encode (i := .sys nnn) (by simp [Instr.wellFormed, hcls, hret]),
    decodeWord_encode (i := .jp nnn) rfl, decodeWord_encode (i := .ldI nnn) rfl, decodeWord_encode (i := .jpV0 nnn) rfl,
    ⟨t, ht, hrun, hpc, hleaves, hmem, hframe⟩, jpV0_completes nnn s, ldI_completes nnn s⟩

end Sys2Proof.Machine

/-! SUPPORT. Families 3 to 7 and 9xy0: the skips on a comparison, and the immediate load and add (42_family_3_to_7 R130 to R134;
44_family_9_to_C R160). -/

namespace Sys2Proof.Machine

/-! ## The two ways these instructions end -/

/-- A skip changes pc alone, so it is a write of pc on either side of the condition that its test decides. -/
theorem skipIf_completes {c : Bool} {p : Prop} [Decidable p] (hc : c = true ↔ p) (s : State) :
    ∃ t, done (skipIf c s) = .next t ∧ t.fsm = .running ∧
      t.pc = (if p then s.pc + 4#16 else s.pc + 2#16) ∧ NextFetchLeaves t ∧ KeepsMem s t ∧ Frame [] [] s t := by
  simp only [← hc]
  cases c with
  | true => exact done_setPc (s.pc + 4#16) s
  | false => exact done_setPc (s.pc + 2#16) s

/-- A register write completes with that value, at any destination (R133, R134). -/
theorem writeReg_completes (x : Nibble) (b : Byte) (s : State) :
    ∃ t, writeReg x b s = .next t ∧ t.fsm = .running ∧ t.pc = s.pc + 2#16 ∧ getV x t = b ∧ KeepsMem s t ∧
      Frame [x] [] s t :=
  ⟨_, writeReg_eq x b s, rfl, rfl, getV_setV_same s x b, fun _ => rfl,
    fun _ hr => getV_setV_other s (List.ne_of_not_mem_cons hr) b, by simp [KeepsSpecials]⟩

/-! ## The obligations -/

/-- Settles O14: the words decode as encodings do, and each instruction is a skip on its own condition. -/
theorem skipsOnCompare : Obligations.SkipsOnCompare := fun x y kk s =>
  ⟨decodeWord_encode (i := .seImm x kk) rfl, decodeWord_encode (i := .sneImm x kk) rfl,
    decodeWord_encode (i := .seReg x y) rfl, decodeWord_encode (i := .sneReg x y) rfl,
    skipIf_completes beq_iff_eq s, skipIf_completes bne_iff_ne s, skipIf_completes beq_iff_eq s,
    skipIf_completes bne_iff_ne s⟩

/-- Settles O15: both are a register write, the sum taken modulo 256. -/
theorem immediateLoadAndAdd : Obligations.ImmediateLoadAndAdd := by
  intro x kk s
  obtain ⟨t, ht, hrun, hpc, hsum, hframe⟩ := writeReg_completes x (sum8 (getV x s) kk) s
  exact ⟨decodeWord_encode (i := .ldImm x kk) rfl, decodeWord_encode (i := .addImm x kk) rfl,
    writeReg_completes x kk s, t, ht, hrun, hpc, by rw [hsum, toNat_sum8], hframe⟩

end Sys2Proof.Machine

/-! SUPPORT. Family 8 in the plain cases: moves and bitwise logic, and the laws of addition and subtraction for operands other
than VF (43_family_8_alu R140 to R143, R151, R152). -/

namespace Sys2Proof.Machine

/-! ## Register writes given bit by bit -/

theorem writeReg_bits_complete (x : Nibble) (s : State) {b : Byte} {bits : Nat → Bool} (hb : ∀ j, b.getLsbD j = bits j) :
    ∃ t, writeReg x b s = .next t ∧ t.fsm = .running ∧ t.pc = s.pc + 2#16 ∧ (∀ j, (getV x t).getLsbD j = bits j) ∧
      KeepsMem s t ∧ Frame [x] [] s t := by
  obtain ⟨t, ht, hrun, hpc, rfl, hframe⟩ := writeReg_completes x b s
  exact ⟨t, ht, hrun, hpc, hb, hframe⟩

/-- Settles O16: the words decode as encodings do, and each instruction is one register write. -/
theorem moveAndLogic : Obligations.MoveAndLogic := fun x y s =>
  ⟨decodeWord_encode (i := .ldReg x y) rfl, decodeWord_encode (i := .orReg x y) rfl,
    decodeWord_encode (i := .andReg x y) rfl, decodeWord_encode (i := .xorReg x y) rfl,
    writeReg_completes x (getV y s) s, writeReg_bits_complete x s fun _ => BitVec.getLsbD_or,
    writeReg_bits_complete x s fun _ => BitVec.getLsbD_and, writeReg_bits_complete x s fun _ => BitVec.getLsbD_xor⟩

/-! ## Flagged instructions on operands other than VF -/

/-- Where neither operand is VF the flag write does not reach the operands, and the result write does not reach VF. -/
theorem flagThenResult_apart (flag result : Byte → Byte → Byte) {x y : Nibble} (hx : x ≠ VF) (hy : y ≠ VF) (s : State) :
    ∃ t, flagThenResult flag result x y s = .next t ∧ getV x t = result (getV x s) (getV y s) ∧
      getV VF t = flag (getV x s) (getV y s) := by
  obtain ⟨t, ht, -, -, hV, -⟩ := flagThenResult_spec flag result x y s
  refine ⟨t, ht, ?_, ?_⟩
  · rw [hV, if_pos rfl, if_neg hx, if_neg hy]
  · rw [hV, if_neg hx.symm, if_pos rfl]

/-! ## Addition (R151) -/

/-- The carry is what the 8-bit sum leaves out. -/
theorem add_eq_carryFlag_sum8 (a b : Byte) : a.toNat + b.toNat = 256 * (carryFlag a b).toNat + (sum8 a b).toNat := by
  rw [toNat_carryFlag, toNat_sum8]
  split <;> omega

/-- Settles O20: a flagged sum, a register write that reaches VF only as destination, an index write, and a jump. -/
theorem additionLaw : Obligations.AdditionLaw := by
  intro x y kk nnn s
  refine ⟨fun hx hy => ?_, ?_, ?_, ?_⟩
  · obtain ⟨t, ht, hsum, hflag⟩ := flagThenResult_apart carryFlag sum8 hx hy s
    exact ⟨t, ht, by rw [hflag, hsum, add_eq_carryFlag_sum8], by rw [hsum, toNat_sum8], by rw [hflag, toNat_carryFlag]⟩
  · obtain ⟨t, ht, -, -, hsum, -, hregs, -⟩ := writeReg_completes x (sum8 (getV x s) kk) s
    exact ⟨t, ht, by rw [hsum, toNat_sum8], fun hx => hregs VF (by simpa using hx.symm)⟩
  · refine ⟨_, writeIndex_eq (s.I + zextByte (getV x s)) s, ?_, fun _ => rfl⟩
    show (s.I + zextByte (getV x s)).toNat = _
    rw [BitVec.toNat_add, toNat_zextByte]
  · obtain ⟨t, ht, -, hpc, hmax, -⟩ := jpV0_completes nnn s
    exact ⟨t, ht, hpc, hmax⟩

/-! ## Subtraction (R152) -/

/-- The three cases of minuend and subtrahend: at equality there is no borrow, and the flag is 0. -/
theorem greaterFlag_diff8_cases (a b : Byte) :
    (a.toNat > b.toNat → (greaterFlag a b).toNat = 1 ∧ (diff8 a b).toNat = a.toNat - b.toNat ∧
      1 ≤ (diff8 a b).toNat ∧ (diff8 a b).toNat ≤ 255) ∧
    (a.toNat = b.toNat → (greaterFlag a b).toNat = 0 ∧ (diff8 a b).toNat = 0) ∧
    (a.toNat < b.toNat → (greaterFlag a b).toNat = 0 ∧ (diff8 a b).toNat + b.toNat = a.toNat + 256 ∧
      1 ≤ (diff8 a b).toNat ∧ (diff8 a b).toNat ≤ 255) := by
  rw [toNat_greaterFlag, toNat_diff8]
  refine ⟨fun hgt => ⟨if_pos hgt, ?_⟩, fun heq => ⟨if_neg heq.not_gt, ?_⟩, fun hlt => ⟨if_neg hlt.not_gt, ?_⟩⟩ <;> omega

/-- Settles O21: 8xy5 and 8xy7 are one subtraction with the operands exchanged. -/
theorem subtractionLaw : Obligations.SubtractionLaw := by
  intro x y s hx hy
  obtain ⟨t, ht, hdiff, hflag⟩ := flagThenResult_apart greaterFlag diff8 hx hy s
  obtain ⟨u, hu, hdiff', hflag'⟩ :=
    flagThenResult_apart (fun vx vy => greaterFlag vy vx) (fun vx vy => diff8 vy vx) hx hy s
  refine ⟨t, u, ht, hu, ?_⟩
  rintro a b d f (⟨rfl, rfl, rfl, rfl⟩ | ⟨rfl, rfl, rfl, rfl⟩)
  · rw [hdiff, hflag]
    exact greaterFlag_diff8_cases (getV x s) (getV y s)
  · rw [hdiff', hflag']
    exact greaterFlag_diff8_cases (getV y s) (getV x s)

end Sys2Proof.Machine

/-! SUPPORT. A draw as a whole: how Dxyn completes, which bytes and pixels its last row changes, and when it clears a lit pixel
(45_family_D R172 to R176). -/

namespace Sys2Proof.Machine

/-! ## How Dxyn completes -/

/-- The draw of the first `n` rows of the sprite at I, its corner from V[x] and V[y] (R172). -/
def spriteDraw (x y : Nibble) (n : Nat) (s : State) : Draw :=
  drawRows s.I.toNat ((getV x s).toNat % 64) ((getV y s).toNat % 32) n ⟨s.mem, false⟩

/-- Where its sprite is in memory Dxyn leaves the memory of the draw, and its collision flag in VF. -/
theorem drw_completes (x y : Nibble) {n : Nibble} {s : State} (hin : n.toNat = 0 ∨ s.I.toNat + n.toNat ≤ 4096) :
    ∃ t, exec (.drw x y n) s = .next t ∧ t.fsm = .running ∧ t.pc = s.pc + 2#16 ∧
      getV VF t = flagByte (spriteDraw x y n.toNat s).collision ∧
      (∀ a, t.mem.read a = (spriteDraw x y n.toNat s).mem.read a) ∧ Frame [VF] [] s t := by
  simp only [exec, execDrw, ifInBounds_run hin]
  obtain ⟨t, ht, hrun, hpc, hflag, hmem, hregs, hspecials⟩ :=
    writeReg_completes VF (flagByte (spriteDraw x y n.toNat s).collision)
      { s with mem := (spriteDraw x y n.toNat s).mem }
  exact ⟨t, ht, hrun, hpc, hflag, hmem, hregs, by simpa [KeepsSpecials, spriteDraw] using hspecials⟩

theorem flagByte_eq_ite {b : Bool} {p : Prop} [Decidable p] (h : b = true ↔ p) :
    flagByte b = if p then 0x01#8 else 0x00#8 := by
  simp only [flagByte, h]

theorem flagByte_eq_one_iff (b : Bool) : flagByte b = 0x01#8 ↔ b = true := by cases b <;> decide

/-! ## One row, byte by byte -/

/-- At a byte boundary nothing is left of the right part, so no case split is needed for it (R173). -/
theorem rightPart_eq_shiftLeft (xpos : Nat) (b : Byte) :
    (if xpos % 8 = 0 then 0x00#8 else b <<< (8 - xpos % 8)) = b <<< (8 - xpos % 8) := by
  split
  · next hs => rw [hs, BitVec.shiftLeft_eq_zero (Nat.le_refl 8)]
  · rfl

theorem fbAddr_right_ne_left {xpos : Nat} (hx : xpos < 64) (row : Nat) :
    fbAddr row ((xpos / 8 + 1) % 8) ≠ fbAddr row (xpos / 8) := by
  rw [Ne, fbAddr_inj (Nat.mod_lt _ (by decide)) (by omega)]
  omega

section
variable {xpos row : Nat} (hx : xpos < 64) (hrow : row < 32) (b : Byte) (d : Draw)

include hx hrow

theorem read_drawRow_left :
    (drawRow xpos row b d).mem.read (fbAddr row (xpos / 8)) =
      d.mem.read (fbAddr row (xpos / 8)) ^^^ b >>> (xpos % 8) := by
  rw [read_drawRow hx hrow, if_pos rfl]

theorem read_drawRow_right :
    (drawRow xpos row b d).mem.read (fbAddr row ((xpos / 8 + 1) % 8)) =
      d.mem.read (fbAddr row ((xpos / 8 + 1) % 8)) ^^^ b <<< (8 - xpos % 8) := by
  rw [read_drawRow hx hrow, if_neg (fbAddr_right_ne_left hx row), ← rightPart_eq_shiftLeft]
  by_cases hs : xpos % 8 = 0 <;> simp [hs]

theorem read_drawRow_elsewhere {a : Nat} (hleft : a ≠ fbAddr row (xpos / 8))
    (hright : a ≠ fbAddr row ((xpos / 8 + 1) % 8)) : (drawRow xpos row b d).mem.read a = d.mem.read a := by
  rw [read_drawRow hx hrow, if_neg hleft, if_neg fun h => hright h.1]

/-- A row clears a bit where its left or its right part meets a bit of the byte it is XORed into (R174). -/
theorem collision_drawRow_iff :
    (drawRow xpos row b d).collision = true ↔ d.collision = true ∨
      d.mem.read (fbAddr row (xpos / 8)) &&& b >>> (xpos % 8) ≠ 0x00#8 ∨
      d.mem.read (fbAddr row ((xpos / 8 + 1) % 8)) &&& b <<< (8 - xpos % 8) ≠ 0x00#8 := by
  obtain ⟨-, hlt⟩ := fbAddr_range hrow (col := xpos / 8) (by omega)
  rw [← rightPart_eq_shiftLeft, drawRow]
  by_cases hs : xpos % 8 = 0
  · simp [xorPart, hs]
  · have hread : (xorPart (fbAddr row (xpos / 8)) (b >>> (xpos % 8)) d).mem.read (fbAddr row ((xpos / 8 + 1) % 8)) =
        d.mem.read (fbAddr row ((xpos / 8 + 1) % 8)) := by
      rw [read_xorPart (by omega), if_neg (fbAddr_right_ne_left hx row)]
    simp only [hs, if_false]
    rw [xorPart, hread]
    simp [xorPart, or_assoc]

end

/-! ## Lit pixels that the sprite meets -/

/-- A part meets a bit of a framebuffer byte where one of its bits falls on a lit pixel of that byte. -/
theorem read_and_part_ne_zero_iff (m : Memory) (row col : Nat) (part : Byte) :
    m.read (fbAddr row col) &&& part ≠ 0x00#8 ↔
      ∃ px, px / 8 = col ∧ pixelLit m px row = true ∧ part.getLsbD (7 - px % 8) = true := by
  constructor
  · contrapose!
    intro hnone
    refine BitVec.eq_of_getLsbD_eq fun i hi => ?_
    have := hnone (8 * col + (7 - i)) (by omega)
    rw [pixelLit, show (8 * col + (7 - i)) / 8 = col by omega, show 7 - (8 * col + (7 - i)) % 8 = i by omega] at this
    simpa using this
  · rintro ⟨px, rfl, hlit, hbit⟩ hzero
    have := congrArg (·.getLsbD (7 - px % 8)) hzero
    rw [BitVec.getLsbD_and, hbit, Bool.and_true] at this
    simp [pixelLit, this] at hlit

/-- A row clears a pixel where one of its bits lands on a lit pixel of its pixel row. -/
theorem collision_drawRow_iff_pixel {xpos row : Nat} (hx : xpos < 64) (hrow : row < 32) (b : Byte) (d : Draw) :
    (drawRow xpos row b d).collision = true ↔ d.collision = true ∨
      ∃ px, px < 64 ∧ pixelLit d.mem px row = true ∧ rowBit xpos b px = true := by
  rw [collision_drawRow_iff hx hrow, read_and_part_ne_zero_iff, read_and_part_ne_zero_iff]
  refine or_congr_right ⟨?_, ?_⟩
  · rintro (⟨px, hcol, hlit, hbit⟩ | ⟨px, hcol, hlit, hbit⟩)
    · exact ⟨px, by omega, hlit, getLsbD_leftPart hx hcol b ▸ hbit⟩
    · have hpx : px < 64 := by omega
      rw [getLsbD_rightPart hx hpx hcol, Bool.and_eq_true] at hbit
      exact ⟨px, hpx, hlit, hbit.2⟩
  · rintro ⟨px, hpx, hlit, hbit⟩
    by_cases hleft : px / 8 = xpos / 8
    · exact .inl ⟨px, hleft, hlit, by rwa [getLsbD_leftPart hx hleft]⟩
    · by_cases hright : px / 8 = (xpos / 8 + 1) % 8 ∧ xpos % 8 ≠ 0
      · exact .inr ⟨px, hright.1, hlit, by simp [getLsbD_rightPart hx hpx hright.1, hright.2, hbit]⟩
      · rw [rowBit_elsewhere hx hpx hleft (by simpa using hright)] at hbit
        exact absurd hbit Bool.false_ne_true

/-- The first `n` rows, at most 32 of them, have no bit on the pixel row that row `n` lands on. -/
theorem spriteBit_nextRow (s : State) (xpos : Nat) {ypos n : Nat} (hn : n < 32) (hy : ypos < 32) (px : Nat) :
    spriteBit s xpos ypos n px ((ypos + n) % 32) = false := by
  simp [spriteBit, show ((ypos + n) % 32 + 32 - ypos) % 32 = n by omega]

/-- A pixel is covered by n + 1 rows where it is covered by n rows or by the last. -/
theorem spriteBit_succ_iff (s : State) {xpos ypos n px py : Nat} (hn : n < 32) (hy : ypos < 32) (hpy : py < 32) :
    spriteBit s xpos ypos (n + 1) px py = true ↔ spriteBit s xpos ypos n px py = true ∨
      py = (ypos + n) % 32 ∧ rowBit xpos (s.mem.read (s.I.toNat + n)) px = true := by
  rw [spriteBit_succ s hn hy hpy]
  by_cases hrow : py = (ypos + n) % 32
  · simp [hrow, spriteBit_nextRow s xpos hn hy]
  · simp [hrow]

/-- A draw clears a pixel where a sprite bit lands on a pixel that was lit before it: no pixel is met by two rows (R174). -/
theorem collision_drawRows_iff {s : State} {xpos ypos n : Nat} (hapart : SpriteApart s n) (hn : n ≤ 32) (hx : xpos < 64)
    (hy : ypos < 32) (c : Bool) :
    (drawRows s.I.toNat xpos ypos n ⟨s.mem, c⟩).collision = true ↔ c = true ∨
      ∃ px py, px < 64 ∧ py < 32 ∧ pixelLit s.mem px py = true ∧ spriteBit s xpos ypos n px py = true := by
  induction n with
  | zero => simp [drawRows, spriteBit_zero]
  | succ n ih =>
    have hapart' : SpriteApart s n := fun r hr => hapart r (by omega)
    have hrow : (ypos + n) % 32 < 32 := Nat.mod_lt _ (by decide)
    have hbyte : (drawRows s.I.toNat xpos ypos n ⟨s.mem, c⟩).mem.read (s.I.toNat + n) = s.mem.read (s.I.toNat + n) :=
      read_drawRows_outside hx _ _ _ _ (hapart n n.lt_succ_self).2
    have hlit (px : Nat) (hpx : px < 64) :
        pixelLit (drawRows s.I.toNat xpos ypos n ⟨s.mem, c⟩).mem px ((ypos + n) % 32) =
          pixelLit s.mem px ((ypos + n) % 32) := by
      rw [pixelLit_drawRows hapart' (by omega) hx hy hpx hrow, spriteBit_nextRow s xpos (by omega) hy, Bool.xor_false]
    rw [drawRows_succ, collision_drawRow_iff_pixel hx hrow, hbyte, ih hapart' (by omega), or_assoc]
    refine or_congr_right ⟨?_, ?_⟩
    · rintro (⟨px, py, hpx, hpy, hl, hb⟩ | ⟨px, hpx, hl, hb⟩)
      · exact ⟨px, py, hpx, hpy, hl, (spriteBit_succ_iff s (by omega) hy hpy).2 (.inl hb)⟩
      · exact ⟨px, _, hpx, hrow, hlit px hpx ▸ hl, (spriteBit_succ_iff s (by omega) hy hrow).2 (.inr ⟨rfl, hb⟩)⟩
    · rintro ⟨px, py, hpx, hpy, hl, hb⟩
      obtain hcovered | ⟨rfl, hlast⟩ := (spriteBit_succ_iff s (by omega) hy hpy).1 hb
      · exact .inl ⟨px, py, hpx, hpy, hl, hcovered⟩
      · exact .inr ⟨px, hpx, (hlit px hpx).trans hl, hlast⟩

/-! ## The draw undone -/

/-- A sprite apart from the framebuffer keeps its bits where memory is kept outside the framebuffer. -/
theorem spriteBit_congr {s t : State} {n : Nat} (hapart : SpriteApart s n) (hI : t.I = s.I)
    (hout : KeepsMemOutside 0x700 256 s t) (xpos ypos px py : Nat) :
    spriteBit t xpos ypos n px py = spriteBit s xpos ypos n px py := by
  simp only [spriteBit, hI]
  by_cases hr : (py + 32 - ypos) % 32 < n
  · rw [hout _ (hapart _ hr).2]
  · simp [hr]

/-- Memory is as before where it is so outside the framebuffer and every pixel is. -/
theorem keepsMem_of_pixels {s t : State} (hout : KeepsMemOutside 0x700 256 s t)
    (hpixels : ∀ px py, px < 64 → py < 32 → pixelLit t.mem px py = pixelLit s.mem px py) : KeepsMem s t := by
  intro a
  by_cases ha : a < 0x700 ∨ 0x700 + 256 ≤ a
  · exact hout a ha
  · obtain ⟨py, col, hpy, hcol, rfl⟩ : ∃ py col, py < 32 ∧ col < 8 ∧ a = fbAddr py col :=
      ⟨(a - 0x700) / 8, (a - 0x700) % 8, by omega, by omega, by simp only [fbAddr, Config.fbBase]; omega⟩
    refine read_fbAddr_eq fun j hj => ?_
    rw [hpixels _ _ (by omega) hpy, pixelLit, show (8 * col + j) / 8 = col by omega, show (8 * col + j) % 8 = j by omega]

/-! ## The obligations -/

/-- Settles O23: pixels and collision flag of the rows, by induction on their number. -/
theorem drawPixels : Obligations.DrawPixels := by
  intro x y n s hapart
  obtain ⟨t, ht, hrun, hpc, hflag, hmem, hframe⟩ := drw_completes x y hapart.inBounds
  have hx : (getV x s).toNat % 64 < 64 := Nat.mod_lt _ (by decide)
  have hy : (getV y s).toNat % 32 < 32 := Nat.mod_lt _ (by decide)
  have hcollision := collision_drawRows_iff hapart (by omega) hx hy false
  refine ⟨t, ht, hrun, hpc, ⟨fun px py hpx hpy => ?_, fun hmeet => ?_, fun hapartLit => ?_⟩, fun a ha => ?_, hframe⟩
  · rw [pixelLit, hmem]
    exact pixelLit_drawRows hapart (by omega) hx hy hpx hpy false
  · rw [hflag, flagByte_eq_one_iff]
    exact hcollision.2 (.inr hmeet)
  · have hnot : ¬ (spriteDraw x y n.toNat s).collision = true := fun hc => by
      obtain hc | ⟨px, py, hpx, hpy, hl, hb⟩ := hcollision.1 hc
      · exact Bool.false_ne_true hc
      · exact Bool.false_ne_true ((hapartLit px py hpx hpy hl).symm.trans hb)
    rw [hflag, Bool.eq_false_of_not_eq_true hnot]
    rfl
  · exact (hmem a).trans (read_drawRows_outside hx _ _ _ _ ha)

/-- Settles O24: the draw of n + 1 rows is one row drawn on top of the draw of n rows. -/
theorem drawRowByRow : Obligations.DrawRowByRow := by
  intro x y s
  refine ⟨drw_completes x y (.inl rfl), fun n hn hin => ?_⟩
  have hsucc : (n + 1#4).toNat = n.toNat + 1 := by
    rw [BitVec.toNat_add, BitVec.toNat_ofNat]
    omega
  obtain ⟨t, ht, -, -, htflag, htmem, -⟩ := drw_completes x y (n := n) (s := s) (.inr (by omega))
  obtain ⟨u, hu, hrun, hpc, huflag, humem, hframe⟩ := drw_completes x y (n := n + 1#4) (s := s) (.inr (by omega))
  refine ⟨t, u, ht, hu, hrun, hpc, hframe, ?_⟩
  have hx : (getV x s).toNat % 64 < 64 := Nat.mod_lt _ (by decide)
  have hrow : ((getV y s).toNat + n.toNat) % 32 < 32 := Nat.mod_lt _ (by decide)
  have hdraw : spriteDraw x y (n + 1#4).toNat s =
      drawRow ((getV x s).toNat % 64) (((getV y s).toNat + n.toNat) % 32)
        (t.mem.read (s.I.toNat + n.toNat)) (spriteDraw x y n.toNat s) := by
    rw [hsucc, htmem, ← Nat.mod_add_mod]
    rfl
  simp only [rightPart_eq_shiftLeft, htflag, flagByte_eq_one_iff, huflag, humem, hdraw]
  simp only [htmem]
  exact ⟨read_drawRow_left hx hrow _ _, read_drawRow_right hx hrow _ _,
    fun a hleft hright => read_drawRow_elsewhere hx hrow _ _ hleft hright,
    flagByte_eq_ite (collision_drawRow_iff hx hrow _ _)⟩

/-- Settles O25: the second draw has the same sprite bits, and XORs them away again. -/
theorem drawTwiceRestores : Obligations.DrawTwiceRestores := by
  intro x y n s hxVF hyVF hapart
  obtain ⟨t, ht, -, -, ⟨hpixels, -⟩, hout, hregs, hkeepI, -⟩ := drawPixels x y n s hapart
  have hI : t.I = s.I := hkeepI (by simp)
  obtain ⟨u, hu, -, -, ⟨hpixels', hmeet, hapartLit⟩, hout', -⟩ :=
    drawPixels x y n t (by rwa [SpriteApart, hI])
  simp only [hregs x (by simpa using hxVF), hregs y (by simpa using hyVF), spriteBit_congr hapart hI hout]
    at hpixels' hmeet hapartLit
  refine ⟨t, u, ht, hu, ?_, fun hflag => ?_, ?_⟩
  · refine keepsMem_of_pixels (fun a ha => (hout' a ha).trans (hout a ha)) fun px py hpx hpy => ?_
    rw [hpixels' px py hpx hpy, hpixels px py hpx hpy, Bool.xor_assoc, Bool.xor_self, Bool.xor_false]
  · by_contra hnone
    refine absurd (hflag.symm.trans (hapartLit fun px py hpx hpy hlit => ?_)) (by decide)
    by_contra hbit
    have hflip := hpixels px py hpx hpy
    rw [hlit, Bool.eq_true_of_not_eq_false hbit, Bool.xor_true, eq_comm, Bool.not_eq_true'] at hflip
    exact hnone ⟨px, py, hpx, hpy, hflip, hlit⟩
  · rintro ⟨px, py, hpx, hpy, hdark, hlit⟩
    refine hmeet ⟨px, py, hpx, hpy, hlit, ?_⟩
    rwa [hpixels px py hpx hpy, hdark, Bool.false_xor] at hlit

/-- A lit pixel is a bit of its byte by arithmetic (R171). -/
theorem pixelLit_iff (m : Memory) (px py : Nat) :
    pixelLit m px py = true ↔ (m.read (fbAddr py (px / 8))).toNat / 2 ^ (7 - px % 8) % 2 = 1 := by
  rw [pixelLit, BitVec.getLsbD, Nat.testBit_eq_decide_div_mod_eq, decide_eq_true_iff]

/-- Settles O55: the query is one test of its coordinates, and then the pixel itself. -/
theorem pixelQuery : Obligations.PixelQuery := by
  intro px py q
  refine ⟨fun hpx hpy => ⟨_, _, if_pos ⟨hpx, hpy⟩, rfl, pixelLit_iff q.core.mem px py⟩, fun hout => if_neg ?_⟩
  show ¬ (px < 64 ∧ py < 32)
  omega

end Sys2Proof.Machine

/-! SUPPORT. The faults of the execute phase and of the decoder (60_exceptions R201, R207, R211). -/

namespace Sys2Proof.Machine

/-- The kind of the record an instruction takes its fault with is one listed for it (R207). -/
theorem Raises.mayRaise_kind {i : Instr} {s : State} {r : FaultRecord} (h : Raises s i r) : mayRaise i r.kind = true := by
  cases h <;> rfl

/-- Settles O36: of the ways the execute phase ends, only raising leaves the core Faulted. -/
theorem onlyTheseRaise : Obligations.OnlyTheseRaise := by
  intro i s t h hf
  cases exec_next h with
  | raised hr => exact ⟨hr.mayRaise_kind, rfl⟩
  | polled _ _ => exact absurd hf (by simp)
  | completed hrun _ => exact absurd hf (by simp [hrun])

theorem step_undecodable {s : State} (hf : s.fsm ≠ .faulted) (hin : outOfBounds s.pc 2 = false)
    (hd : decodeWord (fetchWord s) = none) : step s = raise (invalidOpcodeRecord (fetchWord s) s.pc) s := by
  simp [step, cycle, hf, hin, hd]

/-- Settles O42: the record latched is the one of the fetched word and its address. -/
theorem invalidOpcodeFaults : Obligations.InvalidOpcodeFaults := fun _ hf hpc hd =>
  ⟨_, step_undecodable hf (fetch_inBounds_iff.2 hpc) hd, rfl, rfl, rfl⟩

end Sys2Proof.Machine

/-! SUPPORT. What a transaction that answers leaves, said once for all of them, and the induction over a run (60_exceptions R231;
20_memory R67). -/

namespace Sys2Proof.Machine

/-! ## One transaction -/

/-- The session that a transaction leaves where it answers: all but `reset` close `load`, and the queries and a `load` of too
large an image leave the core as it was. -/
inductive TransactNext (q : Session) : Transaction → Session → Prop
  | reset : TransactNext q .reset ⟨resetCore q.core, true⟩
  | loaded (image : List Byte) : q.loadOpen = true → TransactNext q (.load image) (.used (loadImage image q.core))
  | stepped {t : State} : step q.core = .next t → TransactNext q .step (.used t)
  | ticked : TransactNext q .tickTimers (.used (tick q.core))
  | keyLatched (k : Nat) (p : Bool) : TransactNext q (.setKey k p) (.used (setKey (BitVec.ofNat 4 k) p q.core))
  | kept {x : Transaction} : x ≠ .reset → TransactNext q x (.used q.core)

section
variable {x : Transaction} {xs : List Transaction} {q q' : Session} {r : Reply}

theorem transactLoad_next {image : List Byte} (h : transactLoad image q = .next (r, q')) :
    TransactNext q (.load image) q' := by
  unfold transactLoad at h
  split at h
  · next hopen =>
    split at h <;> cases h
    · exact .kept (by simp)
    · exact .loaded image hopen
  · cases h

theorem transact_next (h : transact x q = .next (r, q')) : TransactNext q x q' := by
  cases x with
  | reset => cases h; exact .reset
  | load image => exact transactLoad_next h
  | step =>
    obtain ⟨t, ht, -, rfl⟩ := transact_step_eq_next.1 h
    exact .stepped ht
  | tickTimers => cases h; exact .ticked
  | setKey k p =>
    simp only [transact] at h
    split at h <;> cases h
    exact .keyLatched k p
  | getKey _ | pixel _ _ =>
    simp only [transact] at h
    split at h <;> cases h
    exact .kept (by simp)
  | soundActive => cases h; exact .kept (by simp)

/-! ## A run of transactions -/

theorem transactAll_cons_eq_next :
    transactAll (x :: xs) q = .next q' ↔ ∃ r q1, transact x q = .next (r, q1) ∧ transactAll xs q1 = .next q' := by
  rw [transactAll]
  cases transact x q with
  | next a => obtain ⟨r, q1⟩ := a; simp
  | fault _ | refused _ => simp

/-- What every transaction of a run keeps, the run keeps. -/
theorem transactAll_keeps {P : Session → Prop} (hkeep : ∀ x ∈ xs, ∀ q q', P q → TransactNext q x q' → P q') (hq : P q)
    (h : transactAll xs q = .next q') : P q' := by
  induction xs generalizing q with
  | nil => cases h; exact hq
  | cons x xs ih =>
    obtain ⟨hx, hxs⟩ := List.forall_mem_cons.1 hkeep
    obtain ⟨r, q1, h1, h⟩ := transactAll_cons_eq_next.1 h
    exact ih hxs (hx q q1 hq (transact_next h1)) h

end

end Sys2Proof.Machine

/-! SUPPORT. The invariant over the host's transactions (60_exceptions R231; 70_reset_and_hazards R240 to R249). -/

namespace Sys2Proof.Machine

theorem resetCore_inv (s : State) : (resetCore s).Inv := resetWith_inv ..

/-- The invariant does not speak of the key latch. -/
theorem setKey_inv {s : State} (h : s.Inv) (k : Nibble) (p : Bool) : (setKey k p s).Inv := h

/-- An image copied over a word at `pc` could leave a record or a key wait unexplained; the reset state has neither. -/
theorem loadImage_inv {s : State} (h : s.Inv) (hreset : s = resetCore s) (image : List Byte) : (loadImage image s).Inv := by
  obtain ⟨hwf, hsp, -, -⟩ := h
  have hrun : (loadImage image s).fsm = .running := by rw [hreset]; rfl
  have hclear : (loadImage image s).fault = .clear := by rw [hreset]; rfl
  exact ⟨Memory.wf_writeBytes hwf _ _, hsp, faultExplained_of_clear (by simp [hrun]) hclear,
    fun hw => absurd hw (by simp [hrun])⟩

/-- Once `load` is closed the session part of the invariant asks nothing. -/
theorem State.Inv.used {s : State} (h : s.Inv) : (Session.used s).Inv := ⟨h, fun hopen => absurd hopen (by simp)⟩

theorem TransactNext.inv {x : Transaction} {q q' : Session} (h : TransactNext q x q') (hq : q.Inv) : q'.Inv := by
  obtain ⟨hcore, hopen⟩ := hq
  cases h with
  | reset => exact ⟨resetCore_inv q.core, fun _ => rfl⟩
  | loaded image ho => exact (loadImage_inv hcore (hopen ho) image).used
  | stepped ht => exact (stepKeepsInvariant _ _ hcore ht).used
  | ticked => exact (tick_inv hcore).used
  | keyLatched k p => exact (setKey_inv hcore _ p).used
  | kept _ => exact hcore.used

/-- Settles O50: transaction by transaction, and by induction over a run from the first session. -/
theorem transactionsKeepInvariant : Obligations.TransactionsKeepInvariant := by
  obtain ⟨-, -, hfirst, -⟩ := invariantHoldsAtReset
  exact ⟨fun _ _ _ _ hq h => (transact_next h).inv hq,
    fun _ _ h => transactAll_keeps (fun _ _ _ _ hq hx => hx.inv hq) hfirst h⟩

end Sys2Proof.Machine

/-! SUPPORT. A Faulted core under transactions other than reset (60_exceptions R214, R230). -/

namespace Sys2Proof.Machine

/-- `load` is closed and the core is `s` but for the timers and the key latch. -/
def KeptButTimersAndKeys (s : State) (q : Session) : Prop :=
  q.core = { s with DT := q.core.DT, ST := q.core.ST, keys := q.core.keys } ∧ q.loadOpen = false

theorem KeptButTimersAndKeys.fsm_eq {s : State} {q : Session} (h : KeptButTimersAndKeys s q) : q.core.fsm = s.fsm := by
  obtain ⟨hcore, -⟩ := h
  rw [hcore]

/-- In Faulted the only transactions but reset that change the core are the tick and the key write. -/
theorem TransactNext.keptButTimersAndKeys {x : Transaction} {s : State} {q q' : Session} (h : TransactNext q x q')
    (hx : x ≠ .reset) (hf : s.fsm = .faulted) (hq : KeptButTimersAndKeys s q) : KeptButTimersAndKeys s q' := by
  have hqf : q.core.fsm = .faulted := hq.fsm_eq.trans hf
  obtain ⟨hcore, hclosed⟩ := hq
  cases h with
  | reset => exact absurd rfl hx
  | loaded _ hopen => exact absurd hopen (by simp [hclosed])
  | stepped ht =>
    rw [step_faulted hqf] at ht
    cases ht
    exact ⟨hcore, rfl⟩
  | ticked => exact ⟨congrArg tick hcore, rfl⟩
  | keyLatched k p => exact ⟨congrArg (setKey (BitVec.ofNat 4 k) p) hcore, rfl⟩
  | kept _ => exact ⟨hcore, rfl⟩

/-- Settles O51, by induction over the run. -/
theorem faultedUntilReset : Obligations.FaultedUntilReset := fun _ q _ hf hclosed hreset h =>
  transactAll_keeps (P := KeptButTimersAndKeys q.core)
    (fun _ hx _ _ hq hnext => hnext.keptButTimersAndKeys (ne_of_mem_of_not_mem hx hreset) hf hq) ⟨rfl, hclosed⟩ h

end Sys2Proof.Machine

/-! SUPPORT. The transactions on the timers and the key latch (60_exceptions R217 to R225). -/

namespace Sys2Proof.Machine

/-! ## The timers -/

/-- One timer down by one, in the spec's words (R217). -/
theorem toNat_countDown_floor (t : Byte) : (countDown t).toNat = if t.toNat > 0 then t.toNat - 1 else 0 := by
  rw [toNat_countDown]
  split <;> omega

/-- Settles O52: the transaction is one tick, whatever the FSM state. -/
theorem tickFloorsAtZero : Obligations.TickFloorsAtZero := fun q =>
  ⟨.used (tick q.core), rfl, toNat_countDown_floor q.core.DT, toNat_countDown_floor q.core.ST, rfl⟩

theorem soundActive_iff {s : State} : soundActive s = true ↔ s.ST.toNat ≠ 0 := by
  rw [soundActive, bne_iff_ne, ne_eq, ← BitVec.toNat_inj]
  rfl

/-! ## The key latch -/

section
variable {k : Nat} (p : Bool) (q : Session)

theorem transact_setKey (hk : k < 16) :
    transact (.setKey k p) q = .next (.unit, .used (setKey (BitVec.ofNat 4 k) p q.core)) := if_pos hk

theorem transact_setKey_refused (hk : ¬ k < 16) : transact (.setKey k p) q = .refused .argumentOutOfRange := if_neg hk

theorem transact_getKey (hk : k < 16) :
    transact (.getKey k) q = .next (.bool (getKey (BitVec.ofNat 4 k) q.core), .used q.core) := if_pos hk

theorem transact_getKey_refused (hk : ¬ k < 16) : transact (.getKey k) q = .refused .argumentOutOfRange := if_neg hk

end

/-- The entry of the latch that an index in range names. -/
theorem getKey_ofNat {k : Nat} (hk : k < 16) (s : State) : getKey (BitVec.ofNat 4 k) s = s.keys[k] := by
  simp [getKey, Nat.mod_eq_of_lt hk]

/-- Indices in range name different entries of the latch. -/
theorem ofNat_nibble_inj {j k : Nat} (hj : j < 16) (hk : k < 16) : BitVec.ofNat 4 j = BitVec.ofNat 4 k ↔ j = k := by
  rw [← BitVec.toNat_inj, BitVec.toNat_ofNat, BitVec.toNat_ofNat, Nat.mod_eq_of_lt hj, Nat.mod_eq_of_lt hk]

theorem getKey_setKey_ofNat {j k : Nat} (hj : j < 16) (hk : k < 16) (p : Bool) (s : State) :
    getKey (BitVec.ofNat 4 j) (setKey (BitVec.ofNat 4 k) p s) = if j = k then p else getKey (BitVec.ofNat 4 j) s := by
  simp only [getKey_setKey, ofNat_nibble_inj hj hk]

/-- Settles O53: in range by the read of a written latch, out of range by the test on the index. -/
theorem setKeyLatches : Obligations.SetKeyLatches := by
  refine fun k p q => ⟨fun hk => ?_, fun hk => ?_⟩
  · refine ⟨_, transact_setKey p q (by omega), fun j hj => ⟨.used (setKey (BitVec.ofNat 4 k) p q.core), ?_⟩, rfl⟩
    rw [← getKey_setKey_ofNat (by omega) (by omega)]
    exact transact_getKey _ (by omega)
  · exact ⟨transact_setKey_refused p q (by omega), transact_getKey_refused q (by omega)⟩

/-- Settles O54: each query leaves the core and answers its register. -/
theorem queriesAnswer : Obligations.QueriesAnswer := fun _ hk q =>
  ⟨⟨.used q.core, getKey_ofNat hk q.core ▸ transact_getKey q hk, rfl⟩, _, .used q.core, rfl, rfl, soundActive_iff⟩

end Sys2Proof.Machine

/-! SUPPORT. The reset state, read register by register and byte by byte (70_reset_and_hazards R240 to R245). -/

namespace Sys2Proof.Machine

/-! ## What a read of the reset state gives -/

section
variable (font : Font) (tc : Bool) (d : Nat)

theorem getV_resetWith (r : Nibble) : getV r (State.resetWith font tc d) = 0x00#8 := Vector.getElem_replicate _

theorem getKey_resetWith (k : Nibble) : getKey k (State.resetWith font tc d) = false := Vector.getElem_replicate _

variable {a : Nat}

theorem read_resetWith_font (ha : a < 80) : (State.resetWith font tc d).mem.read a = font[a] :=
  (reset_memory_read font a).trans (dif_pos ha)

theorem read_resetWith_above (ha : 80 ≤ a) : (State.resetWith font tc d).mem.read a = 0x00#8 :=
  (reset_memory_read font a).trans (dif_neg (by omega))

/-- The framebuffer lies above FONT, so the whole display is dark. -/
theorem pixelLit_resetWith (px py : Nat) : pixelLit (State.resetWith font tc d).mem px py = false := by
  have hfb : 80 ≤ fbAddr py (px / 8) := by simp only [fbAddr, Config.fbBase]; omega
  rw [pixelLit, read_resetWith_above font tc d hfb, BitVec.getLsbD_zero]

end

/-! ## The obligations -/

/-- Settles O6: the registers are read off `State.resetWith`, of which `State.reset` is one. -/
theorem resetRegisters : Obligations.ResetRegisters :=
  ⟨fun font tc d r => ⟨rfl, rfl, getV_resetWith font tc d r, rfl⟩, defaultFont, true, 0, rfl⟩

/-- Settles O7: reset memory has no cell, so it reads as FONT below 0x050 and as zero above. -/
theorem resetMemory : Obligations.ResetMemory := fun font tc d =>
  ⟨fun _ _ _ _ => read_resetWith_font font tc d (by omega), fun _ ha _ => read_resetWith_above font tc d ha,
    fun px py _ _ => pixelLit_resetWith font tc d px py⟩

/-- Settles O8: the transaction leaves `resetCore`, whatever the session, and that is a reset state. -/
theorem resetTransaction : Obligations.ResetTransaction := fun q =>
  ⟨⟨resetCore q.core, true⟩, rfl, rfl, ⟨q.core.draws, rfl⟩, rfl, rfl, rfl, getKey_resetWith _ _ _, rfl, rfl⟩

end Sys2Proof.Machine

/-! SUPPORT. The transaction load: its copy, and where it has no move (70_reset_and_hazards R247 to R249). -/

namespace Sys2Proof.Machine

/-! ## The three answers -/

section
variable {image : List Byte} {q : Session}

theorem transact_load (hopen : q.loadOpen = true) (hlen : image.length ≤ 3584) :
    transact (.load image) q = .next (.ok, .used (loadImage image q.core)) :=
  (if_pos hopen).trans (if_neg (by simpa using hlen))

theorem transact_load_tooLarge (hopen : q.loadOpen = true) (hlen : 3584 < image.length) :
    transact (.load image) q = .next (.romTooLarge, .used q.core) :=
  (if_pos hopen).trans (if_pos hlen)

theorem transact_load_refused (hclosed : q.loadOpen = false) :
    transact (.load image) q = .refused .loadOutsideContract :=
  if_neg (by simp [hclosed])

end

/-! ## The copy (R247) -/

/-- An image that `load` accepts ends within memory, so that each of its bytes is stored. -/
theorem read_loadImage {image : List Byte} (hlen : image.length ≤ 3584) (s : State) {i : Nat} (hi : i < image.length) :
    (loadImage image s).mem.read (0x200 + i) = image[i] :=
  s.mem.read_writeBytes_inside 0x200 i image hi (by omega)

theorem loadImage_keepsMemOutside (image : List Byte) (s : State) :
    KeepsMemOutside 0x200 image.length s (loadImage image s) :=
  fun b hb => s.mem.read_writeBytes_outside 0x200 b image hb

/-- Settles O56: `load` stores one run of bytes, and the memory is all that it changes. -/
theorem loadCopiesImage : Obligations.LoadCopiesImage := fun image q hopen hlen =>
  ⟨.used (loadImage image q.core), transact_load hopen hlen, fun _ hi => read_loadImage hlen q.core hi,
    loadImage_keepsMemOutside image q.core, q.core.mem.writeBytes_font 0x200 image, rfl⟩

/-- Settles O57: too large an image is answered before the copy, and every answer but the one of `reset` closes `load`. -/
theorem loadRefusals : Obligations.LoadRefusals := by
  refine ⟨fun image q hopen hlen => ⟨.used q.core, transact_load_tooLarge hopen hlen, rfl⟩, fun image x q q' r hx h => ?_⟩
  have hclosed : q'.loadOpen = false := by rw [transact_used hx h, Session.used_loadOpen]
  exact transact_load_refused hclosed

end Sys2Proof.Machine

/-! SUPPORT. The stack instructions: how RET and CALL complete, raise and stop (41_family_0_1_2 R121, R124; 60_exceptions R202,
R203). -/

namespace Sys2Proof.Machine

/-! ## The three outcomes of each -/

section
variable {s : State}

theorem exec_ret_completes (htop : s.sp.toNat ≠ 0x6CF) (hpop : popInMemory s.sp = true) :
    exec .ret s = .next { jump (stackTopWord s) (pop s) with fsm := .running } :=
  (if_neg htop).trans (if_pos hpop)

theorem exec_ret_underflow (htop : s.sp.toNat = 0x6CF) :
    exec .ret s = .next { s with fsm := .faulted, fault := stackUnderflowRecord } :=
  if_pos htop

theorem exec_ret_stops (htop : s.sp.toNat ≠ 0x6CF) (hpop : ¬ popInMemory s.sp = true) :
    exec .ret s = .fault .stackPointerOutsideMemory :=
  (if_neg htop).trans (if_neg hpop)

theorem exec_call_completes (hlimit : s.sp.toNat ≠ 0x6AF) (hpush : pushInMemory s.sp = true) (nnn : Addr12) :
    exec (.call nnn) s = .next { jump (zextAddr nnn) (push (s.pc + 2#16) s) with fsm := .running } :=
  (if_neg hlimit).trans (if_pos hpush)

theorem exec_call_overflow (hlimit : s.sp.toNat = 0x6AF) (nnn : Addr12) :
    exec (.call nnn) s = .next { s with fsm := .faulted, fault := stackOverflowRecord } :=
  if_pos hlimit

theorem exec_call_stops (hlimit : s.sp.toNat ≠ 0x6AF) (hpush : ¬ pushInMemory s.sp = true) (nnn : Addr12) :
    exec (.call nnn) s = .fault .stackPointerOutsideMemory :=
  (if_neg hlimit).trans (if_neg hpush)

end

/-! ## A call and its return together -/

/-- Two frames that give up `sp` alone make one that gives up nothing, where `sp` comes back. -/
theorem Frame.of_sp_restored {s t u : State} (hst : Frame [] [.sp] s t) (htu : Frame [] [.sp] t u) (hsp : u.sp = s.sp) :
    Frame [] [] s u := by
  obtain ⟨hV, hspecials⟩ := hst
  obtain ⟨hV', hspecials'⟩ := htu
  refine ⟨fun r hr => (hV' r hr).trans (hV r hr), ?_⟩
  simp_all [KeepsSpecials]

/-! ## The obligations -/

/-- Settles O10: `sp` is at the top of the stack, or its two bytes above exist, or they do not. -/
theorem retPopsReturnAddress : Obligations.RetPopsReturnAddress := by
  intro s
  refine ⟨fun htop hin => ?_, exec_ret_underflow, fun hout => ?_⟩
  · have h := exec_ret_completes htop (popInMemory_iff.2 (by omega))
    have hsp : (s.sp + 2#16).toNat = s.sp.toNat + 2 := BitVec.toNat_add_of_lt (by simp; omega)
    exact ⟨_, h, rfl, rfl, hsp, exec_keepsMem h rfl rfl, exec_frame h rfl fun _ _ => rfl⟩
  · exact exec_ret_stops (by omega) (by rw [popInMemory_iff]; omega)

/-- Settles O11: `sp` is at the limit of the stack, or the two bytes that a push writes exist, or they do not. -/
theorem callPushesReturnAddress : Obligations.CallPushesReturnAddress := by
  intro nnn s
  refine ⟨fun hlimit hlo hhi => ?_, fun hlimit => exec_call_overflow hlimit nnn, fun hout => ?_⟩
  · have hpush : pushInMemory s.sp = true := pushInMemory_iff.2 ⟨hlo, by omega⟩
    have h := exec_call_completes hlimit hpush nnn
    obtain ⟨t, ht, hhigh, hlow⟩ := call_stores nnn s hlimit hpush
    obtain rfl : _ = t := Host.Outcome.next.inj (h.symm.trans ht)
    exact ⟨_, h, rfl, toNat_zextAddr nnn, rfl, by rw [hhigh, hlow, joinBytes_bytes], exec_keepsMemOutside h rfl,
      exec_frame h rfl fun _ _ => rfl⟩
  · exact exec_call_stops (by omega) (by rw [pushInMemory_iff]; omega) nnn

/-- Settles O12: RET reads the two bytes that CALL pushed, since `sp + 1` and `sp + 2` after the push are where it wrote. -/
theorem callThenRetReturns : Obligations.CallThenRetReturns := by
  intro nnn s hlegal hlimit
  obtain ⟨d, hd, hd'⟩ := legalSp_iff.1 hlegal
  obtain ⟨t, ht, -, -, hspt, hword, hmem, hframe⟩ :=
    (callPushesReturnAddress nnn s).1 hlimit (by omega) (by omega)
  have hsp : t.sp.toNat + 2 = s.sp.toNat := by rw [hspt]; bv_omega
  obtain ⟨u, hu, hrun, hpc, hspu, hmem', hframe'⟩ := (retPopsReturnAddress t).1 (by omega) (by omega)
  have hback : u.sp = s.sp := BitVec.eq_of_toNat_eq (hspu.trans hsp)
  refine ⟨t, u, ht, hu, hrun, ?_, hback, fun a ha => (hmem' a).trans (hmem a ha), hframe.of_sp_restored hframe' hback⟩
  rw [hpc, hsp, ← hword, show t.sp.toNat + 1 = s.sp.toNat - 1 by omega]

end Sys2Proof.Machine

/-! SUPPORT. The five flagged instructions of family 8 in each case of an operand being VF (43_family_8_alu R144 to R149). -/

namespace Sys2Proof.Machine

/-! ## Flagged instructions, the flag being `f` and the result `r` of the operands' values -/

section
variable {flag result : Byte → Byte → Byte} {f r : Nat → Nat → Nat}
variable (hf : ∀ a b, (flag a b).toNat = f a.toNat b.toNat) (hr : ∀ a b, (result a b).toNat = r a.toNat b.toNat)
include hf hr

/-- The result is the last value written: where x is VF it is all that is left, and an operand in VF is read as the flag
(R149). -/
theorem flagThenResult_completes (x y : Nibble) (s : State) :
    ∃ t, flagThenResult flag result x y s = .next t ∧ t.fsm = .running ∧ t.pc = s.pc + 2#16 ∧ KeepsMem s t ∧
      Frame [x, VF] [] s t ∧
      (let vx := (getV x s).toNat
       let vy := (getV y s).toNat
       let c := f vx vy
       (x ≠ VF → (getV x t).toNat = r vx (if y = VF then c else vy) ∧ (getV VF t).toNat = c) ∧
       (x = VF → (getV VF t).toNat = r c (if y = VF then c else vy))) := by
  obtain ⟨t, ht, hrun, hpc, hV, honly⟩ := flagThenResult_spec flag result x y s
  refine ⟨t, ht, hrun, hpc, fun a => by rw [honly], ⟨fun i hi => ?_, by rw [honly]; simp [KeepsSpecials]⟩,
    fun hx => ⟨?_, ?_⟩, fun hx => ?_⟩
  · obtain ⟨hix, hiVF⟩ : i ≠ x ∧ i ≠ VF := by simpa using hi
    rw [hV, if_neg hix, if_neg hiVF]
  · rw [hV, if_pos rfl, if_neg hx, hr, apply_ite BitVec.toNat, hf]
  · rw [hV, if_neg hx.symm, if_pos rfl, hf]
  · rw [hV, if_pos hx.symm, if_pos hx, hr, apply_ite BitVec.toNat, hf]

/-- The cases (a) to (d) of the spec, by which of x and y are VF. -/
theorem flagThenResult_cases (x y : Nibble) (s : State) :
    ∃ t, flagThenResult flag result x y s = .next t ∧ t.fsm = .running ∧ t.pc = s.pc + 2#16 ∧ KeepsMem s t ∧
      Frame [x, VF] [] s t ∧
      (let vx := (getV x s).toNat
       let vy := (getV y s).toNat
       let c := f vx vy
       (x ≠ VF → y ≠ VF → (getV x t).toNat = r vx vy ∧ (getV VF t).toNat = c) ∧
       (x ≠ VF → y = VF → (getV x t).toNat = r vx c ∧ (getV VF t).toNat = c) ∧
       (x = VF → y ≠ VF → (getV VF t).toNat = r c vy) ∧
       (x = VF → y = VF → (getV VF t).toNat = r c c)) := by
  obtain ⟨t, ht, hrun, hpc, hmem, hframe, hother, hVF⟩ := flagThenResult_completes hf hr x y s
  refine ⟨t, ht, hrun, hpc, hmem, hframe, fun hx hy => ?_, fun hx hy => ?_, fun hx hy => ?_, fun hx hy => ?_⟩
  · simpa only [if_neg hy] using hother hx
  · simpa only [if_pos hy] using hother hx
  · simpa only [if_neg hy] using hVF hx
  · simpa only [if_pos hy] using hVF hx

end

/-! ## The obligations -/

/-- Settles O17: where both are VF the carry is added to itself, which does not wrap. -/
theorem addRegisterCases : Obligations.AddRegisterCases := by
  intro x y s
  obtain ⟨t, ht, hrun, hpc, hmem, hframe, hneither, hy, hx, hboth⟩ :=
    flagThenResult_cases (f := fun a b => if a + b > 255 then 1 else 0) (r := fun a b => (a + b) % 256)
      toNat_carryFlag toNat_sum8 x y s
  exact ⟨t, ht, hrun, hpc, hmem, hframe, hneither, hy, hx, fun hx' hy' => by rw [hboth hx' hy']; split <;> rfl⟩

/-- Settles O18: 8xy7 is 8xy5 with the values exchanged; where both are VF the flag is taken from itself. -/
theorem subtractRegisterCases : Obligations.SubtractRegisterCases := by
  intro x y s
  constructor
  · obtain ⟨t, ht, hrun, hpc, hmem, hframe, hneither, hy, hx, hboth⟩ :=
      flagThenResult_cases (f := fun a b => if a > b then 1 else 0) (r := fun a b => (a + 256 - b) % 256)
        toNat_greaterFlag toNat_diff8 x y s
    exact ⟨t, ht, hrun, hpc, hmem, hframe, hneither, hy, hx, fun hx' hy' => by rw [hboth hx' hy']; split <;> rfl⟩
  · obtain ⟨t, ht, hrun, hpc, hmem, hframe, hneither, hy, hx, hboth⟩ :=
      flagThenResult_cases (f := fun a b => if b > a then 1 else 0) (r := fun a b => (b + 256 - a) % 256)
        (fun a b => toNat_greaterFlag b a) (fun a b => toNat_diff8 b a) x y s
    exact ⟨t, ht, hrun, hpc, hmem, hframe, hneither, hy, hx, fun hx' hy' => by rw [hboth hx' hy']; split <;> rfl⟩

/-- Settles O19: flag and result are functions of `V[x]` alone, and where x is VF the flag, 0 or 1, is shifted in its turn. -/
theorem shiftCases : Obligations.ShiftCases := by
  intro x y s
  refine ⟨?_, ?_, fun _ => ⟨rfl, rfl⟩⟩
  · obtain ⟨t, ht, hrun, hpc, hmem, hframe, hother, hVF⟩ :=
      flagThenResult_completes (f := fun a _ => a % 2) (r := fun a _ => a / 2)
        (fun a _ => toNat_lowBitFlag a) (fun a _ => toNat_shiftRight1 a) x y s
    refine ⟨t, ht, hrun, hpc, hmem, hframe, hother, fun hx => BitVec.eq_of_toNat_eq ?_⟩
    rw [hVF hx]
    exact Nat.div_eq_of_lt (Nat.mod_lt _ (by decide))
  · obtain ⟨t, ht, hrun, hpc, hmem, hframe, hother, hVF⟩ :=
      flagThenResult_completes (f := fun a _ => if a ≥ 128 then 1 else 0) (r := fun a _ => 2 * a % 256)
        (fun a _ => toNat_highBitFlag a) (fun a _ => toNat_shiftLeft1 a) x y s
    exact ⟨t, ht, hrun, hpc, hmem, hframe, hother, fun hx => by rw [hVF hx]; split <;> rfl⟩

end Sys2Proof.Machine

/-! SUPPORT. The random byte, the key skips, the timers, index arithmetic and the key wait (44_family_9_to_C R163;
46_family_E_keys R180 to R182; 47_family_F R185 to R190). -/

namespace Sys2Proof.Machine

/-- A register's low nibble is its value modulo 16 (R182). -/
theorem keyOf_eq_ofNat (b : Byte) : keyOf b = BitVec.ofNat 4 (b.toNat % 16) := by
  unfold keyOf
  exact BitVec.eq_of_toNat_eq (by simp)

/-! ## The obligations -/

/-- Settles O22: a register write in the state that has drawn the byte; AND sets no bit that kk lacks. -/
theorem randomByteMasked : Obligations.RandomByteMasked := by
  intro x kk s
  obtain ⟨t, ht, hrun, hpc, hV, -, -, -, -, -, -, hdraws, -⟩ :=
    writeReg_completes x (Config.rnd s.draws &&& kk) (drawRnd s).2
  have h : exec (.rnd x kk) s = .next t := ht
  refine ⟨t, h, hrun, hpc, hV, hdraws (by simp), fun j hj => ?_, exec_keepsMem h hrun rfl,
    exec_frame h hrun (by simp [writesV])⟩
  rw [hV, BitVec.getLsbD_and, hj, Bool.and_false]

/-- Settles O26: two skips, on the key's latch and on its opposite. -/
theorem keySkips : Obligations.KeySkips := by
  intro x s
  simp only [← keyOf_eq_ofNat]
  have hnot : (!getKey (keyOf (getV x s)) s) = true ↔ ¬ getKey (keyOf (getV x s)) s = true := by
    rw [Bool.not_eq_true', Bool.not_eq_true]
  obtain ⟨t, ht, hrun, hpc, -, hframe⟩ := skipIf_completes (.refl (getKey (keyOf (getV x s)) s = true)) s
  obtain ⟨u, hu, hrun', hpc', -, hframe'⟩ := skipIf_completes hnot s
  exact ⟨⟨t, ht, hrun, hpc, hframe⟩, u, hu, hrun', by rw [hpc', ite_not], hframe'⟩

/-- Settles O27: a register write of DT, and two writes of one timer. -/
theorem timerTransfers : Obligations.TimerTransfers := by
  intro x s
  have hDT : exec (.ldDTVx x) s = .next { advance { s with DT := getV x s } with fsm := .running } := rfl
  have hST : exec (.ldSTVx x) s = .next { advance { s with ST := getV x s } with fsm := .running } := rfl
  exact ⟨writeReg_completes x s.DT s,
    ⟨_, hDT, rfl, rfl, rfl, exec_keepsMem hDT rfl rfl, exec_frame hDT rfl fun _ _ => rfl⟩,
    ⟨_, hST, rfl, rfl, rfl, exec_keepsMem hST rfl rfl, exec_frame hST rfl fun _ _ => rfl⟩⟩

/-- Settles O28: both are a write of I; the sum wraps at 16 bits, and five times a byte stays below the wrap. -/
theorem indexArithmetic : Obligations.IndexArithmetic := by
  intro x s
  have hadd : exec (.addIVx x) s = .next _ := writeIndex_eq (s.I + zextByte (getV x s)) s
  have hfont : exec (.ldFVx x) s = .next _ := writeIndex_eq (BitVec.ofNat 16 (5 * (getV x s).toNat)) s
  have hsum : (s.I + zextByte (getV x s)).toNat = (s.I.toNat + (getV x s).toNat) % 65536 := by
    rw [BitVec.toNat_add, toNat_zextByte]
  have hfive : (BitVec.ofNat 16 (5 * (getV x s).toNat)).toNat = 5 * (getV x s).toNat :=
    Nat.mod_eq_of_lt (by omega)
  exact ⟨⟨_, hadd, rfl, rfl, hsum, exec_keepsMem hadd rfl rfl, exec_frame hadd rfl fun _ _ => rfl⟩,
    ⟨_, hfont, rfl, rfl, hfive, hfive.trans_le (by omega), exec_keepsMem hfont rfl rfl,
      exec_frame hfont rfl fun _ _ => rfl⟩⟩

/-- The scan finds the key that is pressed with none pressed below it. -/
theorem lowestKey_eq_some {s : State} {k : Nibble} (hk : getKey k s = true)
    (hlow : ∀ j : Nibble, j.toNat < k.toNat → getKey j s = false) : lowestKey s = some k := by
  cases hscan : lowestKey s with
  | none => simp [lowestKey_none.1 hscan k] at hk
  | some j =>
    obtain ⟨hj, hlow'⟩ := lowestKey_some hscan
    have hjk : ¬ j.toNat < k.toNat := fun h => by simp [hlow j h] at hj
    have hkj : ¬ k.toNat < j.toNat := fun h => by simp [hlow' k h] at hk
    exact congrArg some (BitVec.eq_of_toNat_eq (by omega))

/-- Settles O29: the scan decides between a register write and the poll. -/
theorem keyWait : Obligations.KeyWait := by
  intro x s
  simp only [exec, execLdVxK]
  refine ⟨fun k hk hlow => ?_, fun hnone => ?_⟩
  · rw [lowestKey_eq_some hk hlow]
    obtain ⟨t, ht, hrun, hpc, hV, hframe⟩ := writeReg_completes x (k.setWidth 8) s
    exact ⟨t, ht, hrun, hpc, by rw [hV]; exact BitVec.toNat_setWidth_of_le (by decide), hframe⟩
  · rw [lowestKey_none.2 hnone]
    rfl

end Sys2Proof.Machine

/-! SUPPORT. BCD and the register blocks inside memory (47_family_F R191 to R193). -/

namespace Sys2Proof.Machine

/-! ## What each leaves where its bounds check passes -/

section
variable {x : Nibble} {s : State}

theorem exec_ldBVx_completes (hI : s.I.toNat + 2 ≤ 0xFFF) :
    exec (.ldBVx x) s = .next
      { advance { s with mem := s.mem.writeBytes s.I.toNat (bcdDigits (getV x s)) } with fsm := .running } := by
  rw [exec, execLdBVx, ifInBounds_run (.inr (by omega))]
  rfl

theorem exec_storeRegs_completes (hI : s.I.toNat + x.toNat ≤ 0xFFF) :
    exec (.storeRegs x) s = .next
      { advance { s with mem := s.mem.writeBytes s.I.toNat (firstRegs (x.toNat + 1) s) } with fsm := .running } := by
  rw [exec, execStoreRegs, ifInBounds_run (.inr (by omega))]
  rfl

theorem exec_loadRegs_completes (hI : s.I.toNat + x.toNat ≤ 0xFFF) :
    exec (.loadRegs x) s = .next { advance (loadBlock s.I.toNat (x.toNat + 1) s) with fsm := .running } := by
  rw [exec, execLoadRegs, ifInBounds_run (.inr (by omega))]
  rfl

end

/-! ## The obligations -/

/-- Settles O30: what Fx33 stores are the digits, which make up the value, none above 9. -/
theorem bcdStoresDigits : Obligations.BcdStoresDigits := by
  intro x s hI
  have h := exec_ldBVx_completes (x := x) hI
  obtain ⟨t, ht, hh, hd, hu⟩ := ldBVx_stores x s hI
  obtain rfl : _ = t := Host.Outcome.next.inj (h.symm.trans ht)
  refine ⟨_, h, rfl, rfl, ?_, exec_keepsMemOutside h rfl, exec_frame h rfl fun _ _ => rfl⟩
  simp only [hh, hd, hu, BitVec.toNat_ofNat]
  omega

/-- Settles O31: the bytes by what Fx55 stores, the frame by what it may write. -/
theorem storeRegisterBlock : Obligations.StoreRegisterBlock := by
  intro x s hI
  have h := exec_storeRegs_completes hI
  obtain ⟨t, ht, hregs⟩ := storeRegs_stores x s hI
  obtain rfl : _ = t := Host.Outcome.next.inj (h.symm.trans ht)
  exact ⟨_, h, rfl, rfl, hregs, exec_keepsMemOutside h rfl, exec_frame h rfl fun _ _ => rfl⟩

/-- Settles O32: the registers by what a block load leaves in each, the frame by what Fx65 may write. -/
theorem loadRegisterBlock : Obligations.LoadRegisterBlock := by
  intro x s hI
  have h := exec_loadRegs_completes hI
  obtain ⟨-, hspecials, -⟩ := instructionFrames _ _ _ h (by simp)
  refine ⟨_, h, rfl, ?_, fun r => ?_, exec_keepsMem h rfl rfl, hspecials⟩
  · rw [loadBlock_V_only]
    rfl
  · simp only [← Nat.lt_succ_iff]
    exact getV_loadBlock s.I.toNat (by omega) s r

/-- Settles O33: I and memory are all that Fx65 reads, and Fx55 leaves I where it was. -/
theorem storeThenLoadBlock : Obligations.StoreThenLoadBlock := by
  intro x s t hI ht v hmem hvI
  obtain ⟨t', ht', -, -, hstored, -, -, htI, -⟩ := storeRegisterBlock x s hI
  obtain rfl : t' = t := Host.Outcome.next.inj (ht'.symm.trans ht)
  have hIeq : v.I = s.I := hvI.trans (htI (by simp))
  obtain ⟨u, hu, -, -, hloaded, -⟩ := loadRegisterBlock x v (by rwa [hIeq])
  refine ⟨u, hu, fun r hr => ?_⟩
  rw [hloaded, if_pos hr, hmem, hIeq, hstored r hr]

end Sys2Proof.Machine
